-- ==== Sys2Proof/Config.lean ====
section
/-!
DEFINITION. The parameters of the block (00_scope.md R5, R6, R7). BASE and ADDR_BITS are open: they are
built from constants without a body, so that no proof can see their values (log entry 4). Every other
parameter is fixed by the spec.
-/

namespace Sys2Proof.Config

/-- ADDR_BITS, the host's address width (R6, D2: OPEN). -/
opaque addrBits : Nat

/-- The free value from which BASE is formed: which 16-byte slot of the host's map holds the window
(R6, D2: OPEN). -/
opaque windowSlot : Nat

/-- BASE, the host address of the window (R6): every value with BASE mod 16 = 0 and BASE < 2^ADDR_BITS
is this for some value of the open constants, and no other value is. -/
def base : Nat := (16 * windowSlot) % 2 ^ addrBits

/-- RANGE_MAX, the largest legal index of RCON and REFRD (R6, D11). -/
abbrev rangeMax : Nat := 28

end Sys2Proof.Config
end

