-- ==== Sys2Proof/Word.lean ====
section
/-!
DEFINITION. The word types of AESRC: the u8 field element, the u9 value before reduction and the u32
bus word (00_scope.md R5, R6, R8). Every value is unsigned.
-/

namespace Sys2Proof

/-- A field element, operand or result: u8 (R5 ELEM_BITS = 8). -/
abbrev Byte := BitVec 8

/-- A value before reduction: u9 (R5 INTER_BITS, R82). -/
abbrev Wide := BitVec 9

/-- A register, a command word and a host access: u32 (R6 BUS_BITS = CMD_BITS = 32). -/
abbrev Word := BitVec 32

end Sys2Proof
end

