-- ==== Sys2Proof/Syntax.lean ====
section
/-!
DEFINITION. The command set (30_encoding.md R62): one constructor per row of spec/opcode_table.json, in
the table's order. Operands are the u8 fields of the command word (R61).
-/

namespace Sys2Proof

inductive Instr where
  /-- GFMUL a, b (R81): field multiply. -/
  | gfmul (a b : Byte)
  /-- RCON i (R91): read a primary round constant. -/
  | rcon (i : Byte)
  /-- RCONALT r (R94): alternate round constant. -/
  | rconalt (r : Byte)
  /-- REFRD i (R92): read a reference-table entry. -/
  | refrd (i : Byte)
  /-- VALIDATE (R110): reference equality. -/
  | validate
  /-- XCHECK (R111): cross-method equality. -/
  | xcheck
  deriving DecidableEq, Repr

end Sys2Proof
end

