-- ==== Sys2Proof/WellFormed.lean ====
section
/-!
DEFINITION. Which commands the block can execute: an index of RCON or REFRD is at most RANGE_MAX
(30_encoding.md R62, R64). Every other operand is any u8 (R61, R64, R81).
-/

namespace Sys2Proof

/-- The check of R64: the index operand lies in the table. -/
def wellFormed : Instr → Bool
  | .gfmul _ _ => true
  | .rcon i => decide (i.toNat ≤ Config.rangeMax)
  | .rconalt _ => true
  | .refrd i => decide (i.toNat ≤ Config.rangeMax)
  | .validate => true
  | .xcheck => true

end Sys2Proof
end

