-- ==== Sys2Proof/Decode.lean ====
section
/-!
DEFINITION. The command word (30_encoding.md R60), the decode function (R65), total on every u32, the
encoder (R62), the byte lanes of a word on the bus (20_memory.md R47), and the opcode table's match
and mask (R62).
-/

namespace Sys2Proof

/-- OP = w[31:28] (R60). -/
def opField (w : Word) : BitVec 4 := w.extractLsb' 28 4

/-- RSV = w[27:16] (R60). -/
def rsvField (w : Word) : BitVec 12 := w.extractLsb' 16 12

/-- A = w[15:8] (R60). -/
def aField (w : Word) : Byte := w.extractLsb' 8 8

/-- B = w[7:0] (R60). -/
def bField (w : Word) : Byte := w.extractLsb' 0 8

/-- The three answers of decode (R65). -/
inductive Decoded where
  /-- The word is illegal (R63): accept sets ERR_ILLEGAL. -/
  | illegal
  /-- The word is out of range (R64): accept sets ERR_RANGE. -/
  | outOfRange
  /-- The word is the command. -/
  | cmd (i : Instr)
  deriving DecidableEq, Repr

/-- Whether decode answered a command. -/
def isCommand : Decoded → Bool
  | .illegal => false
  | .outOfRange => false
  | .cmd _ => true

/-- The case split of R65 on the opcode, for a word whose RSV field is 0. -/
def decodeOp (op : BitVec 4) (a b : Byte) : Decoded :=
  if op = 0x1#4 then .cmd (.gfmul a b)
  else if op = 0x2#4 then
    if a ≠ 0#8 then .illegal
    else if b.toNat > Config.rangeMax then .outOfRange
    else .cmd (.rcon b)
  else if op = 0x3#4 then
    if a ≠ 0#8 then .illegal else .cmd (.rconalt b)
  else if op = 0x4#4 then
    if a ≠ 0#8 then .illegal
    else if b.toNat > Config.rangeMax then .outOfRange
    else .cmd (.refrd b)
  else if op = 0x5#4 then
    if a ≠ 0#8 ∨ b ≠ 0#8 then .illegal else .cmd .validate
  else if op = 0x6#4 then
    if a ≠ 0#8 ∨ b ≠ 0#8 then .illegal else .cmd .xcheck
  else .illegal

/-- R65: the one function every rule uses to read a command word. The illegal checks come before the
range check (R126). -/
def decode (w : Word) : Decoded :=
  if rsvField w ≠ 0#12 then .illegal
  else decodeOp (opField w) (aField w) (bField w)

/-- A word with RSV = 0 from its other fields (R60). -/
def packWord (op : BitVec 4) (a b : Byte) : Word := op ++ 0#12 ++ a ++ b

/-- The command word of a command (R62). -/
def encode : Instr → Word
  | .gfmul a b => packWord 0x1#4 a b
  | .rcon i => packWord 0x2#4 0#8 i
  | .rconalt r => packWord 0x3#4 0#8 r
  | .refrd i => packWord 0x4#4 0#8 i
  | .validate => packWord 0x5#4 0#8 0#8
  | .xcheck => packWord 0x6#4 0#8 0#8

/-- The "match" column of R62. -/
def tableMatch : Instr → Word
  | .gfmul _ _ => 0x10000000#32
  | .rcon _ => 0x20000000#32
  | .rconalt _ => 0x30000000#32
  | .refrd _ => 0x40000000#32
  | .validate => 0x50000000#32
  | .xcheck => 0x60000000#32

/-- The "mask" column of R62. -/
def tableMask : Instr → Word
  | .gfmul _ _ => 0xFFFF0000#32
  | .rcon _ => 0xFFFFFF00#32
  | .rconalt _ => 0xFFFFFF00#32
  | .refrd _ => 0xFFFFFF00#32
  | .validate => 0xFFFFFFFF#32
  | .xcheck => 0xFFFFFFFF#32

/-- Byte lane k of a register on the bus: bits [8k+7:8k] (R47). -/
def lane (w : Word) (k : Nat) : Byte := w.extractLsb' (8 * k) 8

/-- The four lanes of a word, lowest address first (R47). -/
def lanes (w : Word) : List Byte := [lane w 0, lane w 1, lane w 2, lane w 3]

/-- The word whose lanes, lowest address first, are b0 to b3 (R47: little-endian). -/
def wordOfLanes (b0 b1 b2 b3 : Byte) : Word := b3 ++ b2 ++ b1 ++ b0

/-- The command word at the front of a list of bytes, lowest address first, decoded (R65), with the bytes
after it; none when fewer than four bytes are there. Every command has one length (R60). The block
fetches no bytes, so R47 says that instruction byte order does not arise: reading a word from its lanes
in R47's register order is the model's own byte decoder (DEDUCED, log entry 16; safe). -/
def decodeBytes : List Byte → Option (Decoded × List Byte)
  | b0 :: b1 :: b2 :: b3 :: rest => some (decode (wordOfLanes b0 b1 b2 b3), rest)
  | _ => none

/-- What the decoder reads from an instruction whose bits are w, numbered as spec/opcode_table.json
numbers them: the word's lanes as the bus carries them, decoded. A command word has 32 bits, so a
longer row is no command of this block. -/
def decodeTableWord (nbits w : Nat) : Option Instr :=
  if nbits ≤ 32 then
    match decodeBytes (lanes (BitVec.ofNat 32 (w % 2 ^ nbits))) with
    | some (.cmd i, _) => some i
    | _ => none
  else none

end Sys2Proof
end

