-- ==== Sys2Proof/Machine/State.lean ====
section
/-!
DEFINITION. The state of the block (10_state.md R33), the events that the model's schedule holds, the
reasons a step stops, and the state right after reset (70_reset_and_hazards.md R140).
-/

namespace Sys2Proof.Machine

/-- The core's phase (R27). -/
inductive Phase where
  /-- After reset, before the init step. -/
  | init
  /-- Ready for a command. -/
  | idle
  /-- A command is accepted and not completed. -/
  | busy
  /-- The self-test failed; left only by reset. -/
  | failed
  deriving DecidableEq, Repr

/-- The direction of a host access, as AccessFault reports it (R11, R43). -/
inductive Direction where
  | read
  | write
  deriving DecidableEq, Repr

/-- One atomic step still to come (R12, R52). The schedule of a state is a list of these: plain data
that says which agent moves next, and with which access. -/
inductive Event where
  /-- The core takes its enabled step, if it has one (R72, R142, R155). -/
  | core
  /-- The host or the platform raises reset (R140). -/
  | reset
  /-- The host reads n bytes at addr: MemRead(addr, n) (R11). -/
  | read (addr n : Nat)
  /-- The host writes v, n bytes wide, at addr: MemWrite(addr, n, v) (R11; log entry 12). -/
  | write (addr n : Nat) (v : Word)
  deriving DecidableEq, Repr

/-- Why the machine stops. -/
inductive Fault where
  /-- Raised by a host access inside the window that R41 does not admit: a bus error to the host with
  no block state change (R43, R125, D31). The spec's own fault. Safe. -/
  | accessFault (addr n : Nat) (dir : Direction)
  /-- Raised by a read of RCTAB while it holds no value (R29, U8: the read must fault). No run from
  reset reaches it. Safe. -/
  | rctabAbsent
  /-- Raised by RCON or REFRD with an index past the tables; such a word is never accepted (R64), so
  no run from reset reaches it. Safe. -/
  | indexPastTable (i : Byte)
  /-- Raised by a core turn in phase BUSY while CMD holds no legal command: only legal words reach BUSY
  (R72), so no run from reset reaches it. Safe. -/
  | latchNotLegal (w : Word)
  deriving DecidableEq, Repr

/-- Why the model gives no meaning. -/
inductive Refusal where
  /-- Raised by an arm of exec whose instruction has no meaning yet; no arm raises it. Safe. -/
  | notModelled (mnemonic : String)
  /-- Raised by a host access outside the window: the block does not decode it and the platform decides
  what happens (R40, U14; log entry 5). Safe. -/
  | outsideWindow (addr n : Nat) (dir : Direction)
  deriving DecidableEq, Repr

/-- RCTAB's and REFTAB's shape: 29 bytes, indices 0..28 (R28, R29). -/
abbrev RcTable := Vector Byte 29

/-- The complete state of the block (R33), and the model's own two fields for the host's side. -/
structure State where
  /-- R27. -/
  phase : Phase
  /-- CMD (R23). -/
  cmd : Word
  /-- RES = RESULT[7:0]; RESULT[31:8] is hardwired 0 (R24). -/
  res : Byte
  /-- STATUS bit 2 (R25). -/
  done : Bool
  /-- STATUS bit 3 (R25). -/
  errIllegal : Bool
  /-- STATUS bit 4 (R25). -/
  errRange : Bool
  /-- STATUS bit 5 (R25). -/
  errMismatch : Bool
  /-- STATUS bit 6 (R25). -/
  errOverrun : Bool
  /-- RCTAB: absent between reset and the init step (R29). -/
  rctab : Option RcTable
  /-- The model's own: the steps still to come, oldest first; any list is allowed, and that is how the
  model leaves the interleaving free (R52, R155; log entry 1). -/
  schedule : List Event
  /-- The model's own: the value the block last returned to a host read (R42; log entry 3). -/
  readback : Option Word
  deriving DecidableEq, Repr

/-- The state right after reset (R140), with no step scheduled and nothing read (log entries 1, 3). -/
def State.reset : State where
  phase := .init
  cmd := 0x00000000#32
  res := 0x00#8
  done := false
  errIllegal := false
  errRange := false
  errMismatch := false
  errOverrun := false
  rctab := none
  schedule := []
  readback := none

end Sys2Proof.Machine
end

