-- ==== Sys2Proof/Machine/Flags.lean ====
section
/-!
DEFINITION. The flags: STATUS as a read composes it (10_state.md R25, R26) and the write-1-to-clear of
its sticky bits (20_memory.md R46). Bits 0, 1 and 7 are computed from the phase.
-/

namespace Sys2Proof.Machine

/-- READY: 1 in IDLE and BUSY (R26). -/
def readyBit (s : State) : Bool := s.phase == .idle || s.phase == .busy

/-- BUSY: 1 in BUSY (R26). -/
def busyBit (s : State) : Bool := s.phase == .busy

/-- STFAIL: 1 in FAILED (R26). -/
def stfailBit (s : State) : Bool := s.phase == .failed

/-- The eight defined bits of STATUS, bit 7 leftmost (R26). -/
def statusBits (s : State) : Byte :=
  BitVec.ofBool (stfailBit s) ++ BitVec.ofBool s.errOverrun ++ BitVec.ofBool s.errMismatch ++
  BitVec.ofBool s.errRange ++ BitVec.ofBool s.errIllegal ++ BitVec.ofBool s.done ++
  BitVec.ofBool (busyBit s) ++ BitVec.ofBool (readyBit s)

/-- The value a STATUS read returns: bits 31:8 are 0 (R25, R26). -/
def statusWord (s : State) : Word := (statusBits s).setWidth 32

/-- A sticky bit after a STATUS write whose bit for it is w: written 1 it is cleared (R46). -/
def clearIf (w flag : Bool) : Bool := if w then false else flag

/-- The write-1-to-clear of bits 2 to 6; every other bit of v is ignored (R46). -/
def clearSticky (v : Word) (s : State) : State :=
  { s with
    done := clearIf (v.getLsbD 2) s.done
    errIllegal := clearIf (v.getLsbD 3) s.errIllegal
    errRange := clearIf (v.getLsbD 4) s.errRange
    errMismatch := clearIf (v.getLsbD 5) s.errMismatch
    errOverrun := clearIf (v.getLsbD 6) s.errOverrun }

end Sys2Proof.Machine
end

