-- ==== Sys2Proof/Machine/Field.lean ====
section
/-!
DEFINITION. The arithmetic of the block: the GF(2^8) multiply (40_gf_multiply.md R80), powers (R9), the
primary table (41_round_constants.md R90), the alternate recurrence (R93) and the reference table
(10_state.md R28).
-/

namespace Sys2Proof.Machine

/-- POLY = 0x11B, bit 8 included (R5, C3). -/
def poly : Wide := 0x11B#9

/-- GEN = 02 (R5). -/
def gen : Byte := 0x02#8

/-- RC0 = rc[0] (R5, R90). -/
def rcFirst : Byte := 0x01#8

/-- ALT_SEED (R5, R93). -/
def altSeed : Byte := 0xCB#8

/-- "multiply by x" and the reduction of a u9 whose bit 8 is then set (R80). -/
def shiftReduce (x : Wide) : Wide :=
  if (x <<< 1).getLsbD 8 then (x <<< 1) ^^^ poly else x <<< 1

/-- The loop of R80 with at most n passes left. -/
def gfLoop : Nat → Byte → Wide → Byte → Byte
  | 0, result, _, _ => result
  | n + 1, result, x, y =>
    if y = 0#8 then result
    else gfLoop n (if y.getLsbD 0 then result ^^^ x.setWidth 8 else result) (shiftReduce x) (y >>> 1)

/-- R80: the field product. Eight passes consume every bit of b (R87; log entry 15). -/
def gfmul (a b : Byte) : Byte := gfLoop 8 0#8 (a.setWidth 9) b

/-- The n-fold product of a, with a^0 = 01 (R9). -/
def gfPow (a : Byte) : Nat → Byte
  | 0 => 0x01#8
  | n + 1 => gfmul a (gfPow a n)

/-- The first n + 1 entries of the primary sequence (R90). -/
def primaryFrom : (n : Nat) → Vector Byte (n + 1)
  | 0 => #v[rcFirst]
  | n + 1 => (primaryFrom n).push (gfmul gen (primaryFrom n).back)

/-- primary_table() (R90). -/
def primaryTable : RcTable := primaryFrom 28

/-- One pass of the alternate recurrence: shift left, and XOR 0x11B if the result exceeds 0xFF (R93). -/
def rcPass (v : Byte) : Byte :=
  if (v.setWidth 9 <<< 1).toNat > 0xFF then ((v.setWidth 9 <<< 1) ^^^ poly).setWidth 8
  else (v.setWidth 9 <<< 1).setWidth 8

/-- n passes of the alternate recurrence from v. -/
def rcLoop : Nat → Byte → Byte
  | 0, v => v
  | n + 1, v => rcLoop n (rcPass v)

/-- compute_rc(round): round + 1 passes from the seed 0xCB (R93, C1). -/
def computeRc (round : Byte) : Byte := rcLoop (round.toNat + 1) altSeed

/-- REFTAB (R28). -/
def refTable : RcTable :=
  #v[0x01#8, 0x02#8, 0x04#8, 0x08#8, 0x10#8, 0x20#8, 0x40#8, 0x80#8, 0x1b#8, 0x36#8,
     0x6c#8, 0xd8#8, 0xab#8, 0x4d#8, 0x9a#8, 0x2f#8, 0x5e#8, 0xbc#8, 0x63#8, 0xc6#8,
     0x97#8, 0x35#8, 0x6a#8, 0xd4#8, 0xb3#8, 0x7d#8, 0xfa#8, 0xef#8, 0xc5#8]

/-- The loop shared by both checks: n entries left, i the next index. The first index that does not
agree, with a mismatch, or 29 with none (R110, R111). -/
def checkFrom (agrees : Nat → Bool) : Nat → Nat → Byte × Bool
  | 0, _ => (29#8, false)
  | n + 1, i => if agrees i then checkFrom agrees n (i + 1) else (BitVec.ofNat 8 i, true)

/-- validate(t) (R110). -/
def validateTable (t : RcTable) : Byte × Bool :=
  checkFrom (fun i => t[i]? == refTable[i]?) 29 0

/-- xcheck(t): compute_rc(i + 1) against t[i], offset 1 (R111, C2). -/
def xcheckTable (t : RcTable) : Byte × Bool :=
  checkFrom (fun i => t[i]? == some (computeRc (BitVec.ofNat 8 (i + 1)))) 29 0

end Sys2Proof.Machine
end

