-- ==== Sys2Proof/Machine/Operands.lean ====
section
/-!
DEFINITION. The operand forms of the commands (30_encoding.md R61): a u8 taken as is, or a u8 used as an
index into one of the two tables. No operand comes from a register or from memory.
-/

namespace Sys2Proof.Machine

/-- Entry i of a table, for an index operand. An index past 28 is never accepted (R64). -/
def readTable (t : RcTable) (i : Byte) : Except Fault Byte :=
  match t[i.toNat]? with
  | some v => .ok v
  | none => .error (.indexPastTable i)

/-- RCTAB as a whole; a read while it is absent faults (R29, U8). -/
def readRctab (s : State) : Except Fault RcTable :=
  match s.rctab with
  | some t => .ok t
  | none => .error .rctabAbsent

/-- rctab[i] (R91). -/
def readRctabEntry (s : State) (i : Byte) : Except Fault Byte :=
  match readRctab s with
  | .ok t => readTable t i
  | .error f => .error f

/-- REFTAB[i] (R92). -/
def readRefEntry (i : Byte) : Except Fault Byte := readTable refTable i

end Sys2Proof.Machine
end

