-- ==== Sys2Proof/Machine/Ops.lean ====
section
/-!
DEFINITION. The named operations over the block's registers and window: the admission of a host access
(20_memory.md R41, R43), the host read (R42), the accept and the drop of a CMD write (30_encoding.md
R70, R71), the STATUS write (R46), the completion shared by all commands (R72), the init step
(70_reset_and_hazards.md R142) and reset (R140). The block takes no exception and returns from none
(60_exceptions.md R127, R128): an error is a flag set by these operations, an AccessFault a fault.
-/

namespace Sys2Proof.Machine

/-- Offset of CMD (R22). -/
def offCmd : Nat := 0x0

/-- Offset of RESULT (R22). -/
def offResult : Nat := 0x4

/-- Offset of STATUS (R22). -/
def offStatus : Nat := 0x8

/-- BASE <= addr <= BASE + 15 (R40, R41). -/
def inWindow (base addr : Nat) : Bool := decide (base ≤ addr ∧ addr ≤ base + 15)

/-- Conditions (a) to (d) of R41, for an address inside the window. -/
def admitted (dir : Direction) (base addr n : Nat) : Bool :=
  n == 4 && addr % 4 == 0 &&
  (addr - base == offCmd || addr - base == offResult || addr - base == offStatus) &&
  !(dir == .write && addr - base == offResult)

/-- RESULT as a read returns it: bits 31:8 are hardwired 0 (R24, R42). -/
def resultWord (s : State) : Word := s.res.setWidth 32

/-- The value an admitted read at an offset returns (R42). -/
def readReg (off : Nat) (s : State) : Word :=
  if off = offCmd then s.cmd
  else if off = offResult then resultWord s
  else statusWord s

/-- R70: accept, for a CMD write in phase IDLE. -/
def acceptCmd (v : Word) (s : State) : State :=
  match decode v with
  | .illegal => { s with cmd := v, done := false, errIllegal := true }
  | .outOfRange => { s with cmd := v, done := false, errRange := true }
  | .cmd _ => { s with cmd := v, done := false, phase := .busy }

/-- R71: a CMD write in any other phase is dropped. -/
def dropCmd (s : State) : State := { s with errOverrun := true }

/-- A host write to CMD (R45). The word is not decoded unless the phase is IDLE (R126). -/
def writeCmd (v : Word) (s : State) : State :=
  match s.phase with
  | .idle => acceptCmd v s
  | .init => dropCmd s
  | .busy => dropCmd s
  | .failed => dropCmd s

/-- An admitted host write (R45, R46); RESULT is not written (R41). -/
def writeReg (off : Nat) (v : Word) (s : State) : State :=
  if off = offCmd then writeCmd v s else clearSticky v s

/-- The host read MemRead(addr, n): it changes no block state, and the value goes to the host. -/
def hostRead (base addr n : Nat) (s : State) : Host.Outcome State Fault Refusal :=
  if inWindow base addr then
    if admitted .read base addr n then .next { s with readback := some (readReg (addr - base) s) }
    else .fault (.accessFault addr n .read)
  else .refused (.outsideWindow addr n .read)

/-- The host write MemWrite(addr, n, v). -/
def hostWrite (base addr n : Nat) (v : Word) (s : State) : Host.Outcome State Fault Refusal :=
  if inWindow base addr then
    if admitted .write base addr n then .next (writeReg (addr - base) v s)
    else .fault (.accessFault addr n .write)
  else .refused (.outsideWindow addr n .write)

/-- What every completion does with its result r and its mismatch answer (R72). -/
def complete (r : Byte) (mismatch : Bool) (s : State) : State :=
  { s with
    res := r
    errMismatch := if mismatch then true else s.errMismatch
    done := true
    phase := .idle }

/-- The completion of a command whose result is a value read from a table, which finds no mismatch
(R72, R73). -/
def completeRead (v : Except Fault Byte) (s : State) : Host.Outcome State Fault Refusal :=
  match v with
  | .ok r => .next (complete r false s)
  | .error f => .fault f

/-- The completion of a command that checks RCTAB (R72, R110, R111). -/
def completeCheck (check : RcTable → Byte × Bool) (s : State) : Host.Outcome State Fault Refusal :=
  match readRctab s with
  | .ok t => .next (complete (check t).1 (check t).2 s)
  | .error f => .fault f

/-- R142: the init step, with the self-test. -/
def initStep (s : State) : State :=
  { s with
    rctab := some primaryTable
    phase := if (validateTable primaryTable).2 then .failed else .idle }

/-- R140: reset puts every piece of the block's state to its reset value. What is still to come and
what the host has read are not the block's (log entry 18). -/
def resetBlock (s : State) : State :=
  { State.reset with schedule := s.schedule, readback := s.readback }

end Sys2Proof.Machine
end

