-- ==== Sys2Proof/Machine/Multiply.lean ====
section
/-!
DEFINITION. The multiply family (40_gf_multiply.md): the meaning of GFMUL.
-/

namespace Sys2Proof.Machine

/-- GFMUL (R81): res <- gfmul(a, b). -/
def execGfmul (a b : Byte) (s : State) : Host.Outcome State Fault Refusal :=
  .next (complete (gfmul a b) false s)

end Sys2Proof.Machine
end

