-- ==== Sys2Proof/Machine/RoundConstants.lean ====
section
/-!
DEFINITION. The round-constant family (41_round_constants.md): the meanings of RCON, RCONALT and REFRD.
-/

namespace Sys2Proof.Machine

/-- RCON (R91): res <- rctab[i]. -/
def execRcon (i : Byte) (s : State) : Host.Outcome State Fault Refusal :=
  completeRead (readRctabEntry s i) s

/-- RCONALT (R94): res <- compute_rc(r); rctab is not read. -/
def execRconalt (r : Byte) (s : State) : Host.Outcome State Fault Refusal :=
  .next (complete (computeRc r) false s)

/-- REFRD (R92): res <- REFTAB[i]. -/
def execRefrd (i : Byte) (s : State) : Host.Outcome State Fault Refusal :=
  completeRead (readRefEntry i) s

end Sys2Proof.Machine
end

