-- ==== Sys2Proof/Machine/Validation.lean ====
section
/-!
DEFINITION. The validation family (42_validation.md): the meanings of VALIDATE and XCHECK. The pass is
computed, never assumed (R112).
-/

namespace Sys2Proof.Machine

/-- VALIDATE (R110): (res, mis) <- validate(rctab). -/
def execValidate (s : State) : Host.Outcome State Fault Refusal :=
  completeCheck validateTable s

/-- XCHECK (R111): (res, mis) <- xcheck(rctab). -/
def execXcheck (s : State) : Host.Outcome State Fault Refusal :=
  completeCheck xcheckTable s

end Sys2Proof.Machine
end

