-- ==== Sys2Proof/Machine/Dispatch.lean ====
section
/-!
DEFINITION. The completion of each command (30_encoding.md R72, R73), one arm per constructor of Instr.
-/

namespace Sys2Proof.Machine

def exec (i : Instr) (s : State) : Host.Outcome State Fault Refusal :=
  match i with
  | .gfmul a b => Sys2Proof.Machine.execGfmul a b s
  | .rcon idx => Sys2Proof.Machine.execRcon idx s
  | .rconalt r => Sys2Proof.Machine.execRconalt r s
  | .refrd idx => Sys2Proof.Machine.execRefrd idx s
  | .validate => Sys2Proof.Machine.execValidate s
  | .xcheck => Sys2Proof.Machine.execXcheck s

end Sys2Proof.Machine
end

