-- ==== Sys2Proof/Machine/Agents.lean ====
section
/-!
DEFINITION. The agents and their turns (20_memory.md R52): the core's step (30_encoding.md R72,
70_reset_and_hazards.md R142), the event at the head of the schedule, one step of the machine for any
BASE (00_scope.md R7), and the placing of a command word where the next step executes it.
-/

namespace Sys2Proof.Machine

/-- The core's turn: the init step in INIT, the completion of the latched command in BUSY (R30, R72,
R142). In IDLE and FAILED no core step is enabled (R27, R136); that a turn there is a step which changes
nothing is the model's form of it (DESIGN CHOICE, log entry 2; safe). -/
def coreTurn (s : State) : Host.Outcome State Fault Refusal :=
  match s.phase with
  | .init => .next (initStep s)
  | .busy =>
    match decode s.cmd with
    | .cmd i => exec i s
    | .illegal => .fault (.latchNotLegal s.cmd)
    | .outOfRange => .fault (.latchNotLegal s.cmd)
  | .idle => .next s
  | .failed => .next s

/-- One event, taken as one atomic step (R12, R52). -/
def takeEvent (base : Nat) (e : Event) (s : State) : Host.Outcome State Fault Refusal :=
  match e with
  | .core => coreTurn s
  | .reset => .next (resetBlock s)
  | .read addr n => hostRead base addr n s
  | .write addr n v => hostWrite base addr n v s

/-- One step of the block whose window lies at base: the oldest event of the schedule; with none left,
the core's enabled step (weak fairness, R155; log entry 2). -/
def stepAt (base : Nat) (s : State) : Host.Outcome State Fault Refusal :=
  match s.schedule with
  | [] => coreTurn s
  | e :: rest => takeEvent base e { s with schedule := rest }

/-- The command word w latched in CMD of a block that is about to complete it: phase BUSY, RCTAB
present, and the core's turn next (R29, R30; log entry 8). -/
def latchForCompletion (w : Word) (s : State) : State :=
  { s with
    phase := .busy
    cmd := w
    rctab := some (s.rctab.getD primaryTable)
    schedule := .core :: s.schedule }

end Sys2Proof.Machine
end

