-- ==== Sys2Proof/Machine/Step.lean ====
section
/-!
DEFINITION. One step of the machine, with the window at the platform's BASE, and the host's placing of an
instruction word for the next step.
-/

namespace Sys2Proof.Machine

/-- One atomic step (R12, R52). -/
def step (s : State) : Host.Outcome State Fault Refusal := stepAt Config.base s

/-- s with the command word w where the next step executes it: latched in CMD (R30, R56). -/
def State.withFetchWord (s : State) (nbits w : Nat) : State :=
  latchForCompletion (BitVec.ofNat 32 (w % 2 ^ nbits)) s

end Sys2Proof.Machine
end

