-- ==== Sys2Proof/Machine/Assembler.lean ====
section
/-!
DEFINITION. The assembler (30_encoding.md R74) and the pseudo-instruction xtime (R75): a line's operands
as numbers, the word it assembles to or a refusal (none), and the reading of a line's text. Nothing of
the block depends on this file.
-/

namespace Sys2Proof.Machine

/-- One line of assembler, its operands as the numbers written (R74, R75). -/
inductive AsmLine where
  | gfmul (a b : Nat)
  | rcon (i : Nat)
  | rconalt (r : Nat)
  | refrd (i : Nat)
  | validate
  | xcheck
  /-- The pseudo-instruction (R75). -/
  | xtime (b : Nat)
  /-- .word w: any u32, legal or not. -/
  | word (w : Nat)
  deriving DecidableEq, Repr

/-- An operand as a u8; a value outside 0..255 is refused (R74). -/
def asmByte (n : Nat) : Option Byte := if n ≤ 255 then some (BitVec.ofNat 8 n) else none

/-- A table index; a value outside 0..28 is refused (R74). -/
def asmIndex (n : Nat) : Option Byte := if n ≤ Config.rangeMax then some (BitVec.ofNat 8 n) else none

/-- The expansion of xtime b (R75). -/
def xtime (b : Byte) : Instr := .gfmul 0x02#8 b

/-- The word a line assembles to (R74). -/
def assemble : AsmLine → Option Word
  | .gfmul a b =>
    match asmByte a, asmByte b with
    | some a, some b => some (encode (.gfmul a b))
    | _, _ => none
  | .rcon i => (asmIndex i).map fun i => encode (.rcon i)
  | .rconalt r => (asmByte r).map fun r => encode (.rconalt r)
  | .refrd i => (asmIndex i).map fun i => encode (.refrd i)
  | .validate => some (encode .validate)
  | .xcheck => some (encode .xcheck)
  | .xtime b => (asmByte b).map fun b => encode (xtime b)
  | .word w => if w < 2 ^ 32 then some (BitVec.ofNat 32 w) else none

/-- The value of a digit in a base of at most 16. -/
def digitValue (radix : Nat) (c : Char) : Option Nat :=
  let v :=
    if '0' ≤ c && c ≤ '9' then c.toNat - 48
    else if 'a' ≤ c && c ≤ 'f' then c.toNat - 87
    else if 'A' ≤ c && c ≤ 'F' then c.toNat - 55
    else 16
  if v < radix then some v else none

/-- The value of a row of digits after the value acc. -/
def digitsFrom (radix acc : Nat) : List Char → Option Nat
  | [] => some acc
  | c :: cs =>
    match digitValue radix c with
    | some d => digitsFrom radix (acc * radix + d) cs
    | none => none

/-- An operand's text: a decimal number or a 0x hexadecimal number (R74). -/
def readNumber : List Char → Option Nat
  | [] => none
  | '0' :: 'x' :: c :: cs => digitsFrom 16 0 (c :: cs)
  | cs => digitsFrom 10 0 cs

/-- The text without spaces at its front (log entry 13). -/
def dropBlanks (cs : List Char) : List Char := cs.dropWhile (· == ' ')

/-- The text without spaces at either end (log entry 13). -/
def trimBlanks (cs : List Char) : List Char := (dropBlanks (dropBlanks cs).reverse).reverse

/-- The pieces of a text between commas. -/
def splitCommas : List Char → List (List Char)
  | [] => [[]]
  | c :: cs =>
    match splitCommas cs with
    | [] => [[]]
    | piece :: pieces => if c == ',' then [] :: piece :: pieces else (c :: piece) :: pieces

/-- The operands after the mnemonic: none at all, or numbers separated by commas (R74). -/
def readOperands (cs : List Char) : Option (List Nat) :=
  if (trimBlanks cs).isEmpty then some []
  else (splitCommas cs).mapM fun piece => readNumber (trimBlanks piece)

/-- The line with a mnemonic and its operands; another mnemonic or another number of operands is refused
(R74: no other form; R75: no other pseudo-instruction). -/
def lineOf (mnemonic : List Char) (operands : List Nat) : Option AsmLine :=
  match operands with
  | [] =>
    if mnemonic = "validate".toList then some .validate
    else if mnemonic = "xcheck".toList then some .xcheck
    else none
  | [n] =>
    if mnemonic = "rcon".toList then some (.rcon n)
    else if mnemonic = "rconalt".toList then some (.rconalt n)
    else if mnemonic = "refrd".toList then some (.refrd n)
    else if mnemonic = "xtime".toList then some (.xtime n)
    else if mnemonic = ".word".toList then some (.word n)
    else none
  | [a, b] => if mnemonic = "gfmul".toList then some (.gfmul a b) else none
  | _ => none

/-- A line's text read (R74). -/
def readLine (text : String) : Option AsmLine :=
  let cs := dropBlanks text.toList
  match readOperands (cs.dropWhile (· != ' ')) with
  | some operands => lineOf (cs.takeWhile (· != ' ')) operands
  | none => none

/-- The word a line's text assembles to (R74). -/
def assembleText (text : String) : Option Word :=
  match readLine text with
  | some line => assemble line
  | none => none

end Sys2Proof.Machine
end

