-- ==== Sys2Proof/Machine/HostLines.lean ====
section
/-!
DEFINITION. The host notation of 30_encoding.md R76: the accesses each line makes. The notation is not
part of the block, and nothing of the block depends on this file: a line's accesses are events for a
schedule, and a polling line makes as many reads as the run at hand needs.
-/

namespace Sys2Proof.Machine

/-- The registers of the window (R22). -/
inductive BlockReg where
  | cmd
  | result
  | status
  deriving DecidableEq, Repr

/-- off(reg) (R22, R76). -/
def regOffset : BlockReg → Nat
  | .cmd => offCmd
  | .result => offResult
  | .status => offStatus

/-- One line of a host program (R76). -/
inductive HostLine where
  | writeCmd (w : Word)
  | writeStatus (v : Word)
  | read (r : BlockReg)
  | wait
  | waitready
  | exec (w : Word)
  deriving DecidableEq, Repr

/-- MemRead(BASE + off(reg), 4). -/
def readEvent (base : Nat) (r : BlockReg) : Event := .read (base + regOffset r) 4

/-- MemWrite(BASE + off(reg), 4, v). -/
def writeEvent (base : Nat) (r : BlockReg) (v : Word) : Event := .write (base + regOffset r) 4 v

/-- The accesses of a line, a polling line reading STATUS the given number of times (R76). -/
def lineEvents (base polls : Nat) : HostLine → List Event
  | .writeCmd w => [writeEvent base .cmd w]
  | .writeStatus v => [writeEvent base .status v]
  | .read r => [readEvent base r]
  | .wait => List.replicate polls (readEvent base .status)
  | .waitready => List.replicate polls (readEvent base .status)
  | .exec w =>
    writeEvent base .cmd w :: (List.replicate polls (readEvent base .status) ++ [readEvent base .result])

/-- wait ends on a STATUS value with bit 1 clear (R76). -/
def waitEnds (status : Word) : Bool := !status.getLsbD 1

/-- waitready ends on a STATUS value with bit 0 or bit 7 set (R76). -/
def waitreadyEnds (status : Word) : Bool := status.getLsbD 0 || status.getLsbD 7

end Sys2Proof.Machine
end

