-- ==== Sys2Proof/Safety.lean ====
section
/-!
DEFINITION. What counts as a safe and finished run (70_reset_and_hazards.md R157), and the invariant that
every state of a run from reset meets (10_state.md R29, 30_encoding.md R72).
-/

namespace Sys2Proof.Machine

/-- Quiescent: no core step is pending (R157). -/
def quiescent (s : State) : Bool := s.phase == .idle || s.phase == .failed

/-- No error recorded (R157): STFAIL = 0 and all four error bits 0. R157 asks this of "every error bit the
claim speaks of" and so leaves the choice of bits to each claim; that clean always takes all four is the
model's choice (DESIGN CHOICE, log entry 20; safe). That no AccessFault was raised is no part of the
state: it is that the run answered a next state (log entry 6). -/
def clean (s : State) : Bool :=
  !(s.phase == .failed) && !s.errIllegal && !s.errRange && !s.errMismatch && !s.errOverrun

/-- RCTAB is absent in INIT and holds the primary table in every other phase (R29, R90, R112). -/
def tableOk (s : State) : Bool :=
  if s.phase = .init then s.rctab == none else s.rctab == some primaryTable

/-- In BUSY, CMD holds a legal command (R72: "only legal words reach BUSY"). -/
def latchOk (s : State) : Bool :=
  if s.phase = .busy then isCommand (decode s.cmd) else true

/-- The invariant of every run from reset. -/
abbrev RunInv (s : State) : Prop := tableOk s = true ∧ latchOk s = true

/-- An event the block answers without a bus error: a core turn, a reset, or a host access that R41
admits, for a window at base. -/
def eventAdmitted (base : Nat) : Event → Bool
  | .core => true
  | .reset => true
  | .read addr n => inWindow base addr && admitted .read base addr n
  | .write addr n _ => inWindow base addr && admitted .write base addr n

/-- Whether the step about to be taken is the core's: the schedule says so, or is empty (R155). -/
def coreMoves (s : State) : Bool :=
  match s.schedule with
  | [] => true
  | .core :: _ => true
  | .reset :: _ => false
  | .read _ _ :: _ => false
  | .write _ _ _ :: _ => false

/-- Whether the step about to be taken is a reset (R140). -/
def resetMoves (s : State) : Bool := s.schedule.head? == some .reset

/-- The word that the step about to be taken writes to CMD, for a window at base (R45). -/
def cmdWriteNext (base : Nat) (s : State) : Option Word :=
  match s.schedule with
  | .write addr n v :: _ => if n = 4 ∧ addr = base + offCmd then some v else none
  | _ => none

/-- The value that the step about to be taken writes to STATUS, for a window at base (R46). -/
def statusWriteNext (base : Nat) (s : State) : Option Word :=
  match s.schedule with
  | .write addr n v :: _ => if n = 4 ∧ addr = base + offStatus then some v else none
  | _ => none

end Sys2Proof.Machine
end

