-- ==== Sys2Proof/Certificates/Slice0/Obligations.lean ====
section
/-!
DEFINITION. The statements for the provers, each with the rule of spec/ it comes from. base stands for any
16-byte aligned BASE (00_scope.md R6, R7); the step of the machine uses Config.base.
-/

open Sys2Proof Sys2Proof.Machine

/-! ## Encoding (30_encoding.md) -/

/-- Every well-formed command is read back from its word, operands included (R60 to R65). -/
def Obligations.DecodeOfEncode : Prop :=
  ∀ i : Instr, wellFormed i = true → decode (encode i) = .cmd i

/-- Every word that decodes to a command is that command's one encoding, and the command is well formed
(R62, R65: each command has one word per operand choice). -/
def Obligations.EncodeOfDecode : Prop :=
  ∀ (w : Word) (i : Instr), decode w = .cmd i → wellFormed i = true ∧ encode i = w

/-- R63: the illegal words are exactly those of (a) to (d); the all-zero word is one; and an illegal word
written in IDLE is not executed and sets ERR_ILLEGAL. -/
def Obligations.IllegalWordsExactly : Prop :=
  (∀ w : Word, decode w = .illegal ↔
    (w.toNat / 2 ^ 16 % 2 ^ 12 ≠ 0 ∨
     w.toNat / 2 ^ 28 ∈ [0x0, 0x7, 0x8, 0x9, 0xA, 0xB, 0xC, 0xD, 0xE, 0xF] ∨
     (w.toNat / 2 ^ 28 ∈ [0x2, 0x3, 0x4] ∧ w.toNat / 2 ^ 8 % 2 ^ 8 ≠ 0) ∨
     (w.toNat / 2 ^ 28 ∈ [0x5, 0x6] ∧ (w.toNat / 2 ^ 8 % 2 ^ 8 ≠ 0 ∨ w.toNat % 2 ^ 8 ≠ 0)))) ∧
  decode 0x00000000#32 = .illegal ∧
  (∀ (base : Nat) (w : Word) (s : State), base % 16 = 0 → s.phase = .idle → decode w = .illegal →
    hostWrite base base 4 w s = .next { s with cmd := w, done := false, errIllegal := true })

/-- R64: the out-of-range words are exactly the otherwise legal RCON and REFRD words with B in 29..255;
such a word written in IDLE is not executed and sets ERR_RANGE; every RCONALT round is legal. -/
def Obligations.OutOfRangeWordsExactly : Prop :=
  (∀ w : Word, decode w = .outOfRange ↔
    (w.toNat / 2 ^ 28 ∈ [0x2, 0x4] ∧ w.toNat / 2 ^ 16 % 2 ^ 12 = 0 ∧ w.toNat / 2 ^ 8 % 2 ^ 8 = 0 ∧
     29 ≤ w.toNat % 2 ^ 8)) ∧
  (∀ (base : Nat) (w : Word) (s : State), base % 16 = 0 → s.phase = .idle → decode w = .outOfRange →
    hostWrite base base 4 w s = .next { s with cmd := w, done := false, errRange := true }) ∧
  (∀ r : Byte, decode (0x300000#24 ++ r) = .cmd (.rconalt r))

/-- R65: decode on a word given by its four fields, case by case as the rule lists them. -/
def Obligations.DecodeCaseByCase : Prop :=
  ∀ (op : BitVec 4) (rsv : BitVec 12) (a b : Byte),
    decode (op ++ rsv ++ a ++ b) =
      if rsv ≠ 0 then .illegal
      else match op.toNat with
        | 0x1 => .cmd (.gfmul a b)
        | 0x2 => if a ≠ 0 then .illegal else if b.toNat > 28 then .outOfRange else .cmd (.rcon b)
        | 0x3 => if a ≠ 0 then .illegal else .cmd (.rconalt b)
        | 0x4 => if a ≠ 0 then .illegal else if b.toNat > 28 then .outOfRange else .cmd (.refrd b)
        | 0x5 => if a ≠ 0 ∨ b ≠ 0 then .illegal else .cmd .validate
        | 0x6 => if a ≠ 0 ∨ b ≠ 0 then .illegal else .cmd .xcheck
        | _ => .illegal

/-- R62: a word decodes to a command of a row exactly when its masked bits match the row (and, for the two
rows with an index, the index is in range). -/
def Obligations.OpcodeTableMatches : Prop :=
  ∀ w : Word,
    ((∃ a b, decode w = .cmd (.gfmul a b)) ↔ w &&& 0xFFFF0000#32 = 0x10000000#32) ∧
    ((∃ i, decode w = .cmd (.rcon i)) ↔ w &&& 0xFFFFFF00#32 = 0x20000000#32 ∧ w.toNat % 256 ≤ 28) ∧
    ((∃ r, decode w = .cmd (.rconalt r)) ↔ w &&& 0xFFFFFF00#32 = 0x30000000#32) ∧
    ((∃ i, decode w = .cmd (.refrd i)) ↔ w &&& 0xFFFFFF00#32 = 0x40000000#32 ∧ w.toNat % 256 ≤ 28) ∧
    (decode w = .cmd .validate ↔ w &&& 0xFFFFFFFF#32 = 0x50000000#32) ∧
    (decode w = .cmd .xcheck ↔ w &&& 0xFFFFFFFF#32 = 0x60000000#32)

/-- Words written out from the spec (R62, 95_test_vectors.md S1, V1, V6) decode to what they stand for. -/
def Obligations.SpecWordsDecode : Prop :=
  decodeTableWord 32 0x10005783 = some (.gfmul 0x57#8 0x83#8) ∧
  decodeTableWord 32 0x2000001C = some (.rcon 28#8) ∧
  decodeTableWord 32 0x300000FF = some (.rconalt 255#8) ∧
  decodeTableWord 32 0x4000000C = some (.refrd 12#8) ∧
  decodeTableWord 32 0x50000000 = some .validate ∧
  decodeTableWord 32 0x60000000 = some .xcheck ∧
  decode 0x20FF00FF#32 = .illegal ∧
  decode 0x2000001D#32 = .outOfRange

/-- R47: lane k carries bits [8k+7:8k], and RES lies in the lowest lane of RESULT. The third clause is about
the model's own byte decoder, for R47 says that instruction byte order does not arise: decodeBytes reads
one 32-bit word (R60) from its lanes, lowest address first, and decodes it as R65 does (DEDUCED, log
entry 16). -/
def Obligations.LanesAreLittleEndian : Prop :=
  (∀ (w : Word) (k : Nat), (lane w k).toNat = w.toNat / 2 ^ (8 * k) % 256) ∧
  (∀ s : State, lanes (resultWord s) = [s.res, 0#8, 0#8, 0#8]) ∧
  (∀ (w : Word) (rest : List Byte), decodeBytes (lanes w ++ rest) = some (decode w, rest))

/-- R74, R75: the word of each line of assembler, and the operand values it refuses. -/
def Obligations.AssemblerWords : Prop :=
  (∀ a b : Nat, assemble (.gfmul a b) =
    if a ≤ 255 ∧ b ≤ 255 then some (BitVec.ofNat 32 (0x10000000 ||| a <<< 8 ||| b)) else none) ∧
  (∀ i : Nat, assemble (.rcon i) =
    if i ≤ 28 then some (BitVec.ofNat 32 (0x20000000 ||| i)) else none) ∧
  (∀ r : Nat, assemble (.rconalt r) =
    if r ≤ 255 then some (BitVec.ofNat 32 (0x30000000 ||| r)) else none) ∧
  (∀ i : Nat, assemble (.refrd i) =
    if i ≤ 28 then some (BitVec.ofNat 32 (0x40000000 ||| i)) else none) ∧
  assemble .validate = some 0x50000000#32 ∧
  assemble .xcheck = some 0x60000000#32 ∧
  (∀ b : Nat, assemble (.xtime b) = assemble (.gfmul 0x02 b)) ∧
  (∀ w : Nat, assemble (.word w) = if w < 2 ^ 32 then some (BitVec.ofNat 32 w) else none)

/-! ## Arithmetic (40_gf_multiply.md, 41_round_constants.md) -/

/-- R83: gfmul is polynomial multiplication over GF(2) followed by reduction modulo x^8+x^4+x^3+x+1: the
product of the operands' polynomials and the result's polynomial differ by a multiple of the modulus. -/
def Obligations.GfmulIsPolynomialProduct : Prop :=
  ∀ a b : Byte,
    (Polynomial.X ^ 8 + Polynomial.X ^ 4 + Polynomial.X ^ 3 + Polynomial.X + 1 : Polynomial (ZMod 2)) ∣
      (∑ k ∈ Finset.range 8, if a.getLsbD k then Polynomial.X ^ k else 0) *
        (∑ k ∈ Finset.range 8, if b.getLsbD k then Polynomial.X ^ k else 0) -
      (∑ k ∈ Finset.range 8, if (gfmul a b).getLsbD k then Polynomial.X ^ k else 0)

/-- R85: the field laws of gfmul. -/
def Obligations.GfmulFieldLaws : Prop :=
  (∀ a b : Byte, gfmul a b = gfmul b a) ∧
  (∀ a b c : Byte, gfmul (gfmul a b) c = gfmul a (gfmul b c)) ∧
  (∀ a b c : Byte, gfmul a (b ^^^ c) = gfmul a b ^^^ gfmul a c) ∧
  (∀ a : Byte, gfmul 0x01#8 a = a ∧ gfmul a 0x01#8 = a) ∧
  (∀ a : Byte, gfmul a 0#8 = 0#8 ∧ gfmul 0#8 a = 0#8) ∧
  (∀ a b : Byte, gfmul a b = 0#8 → a = 0#8 ∨ b = 0#8) ∧
  (∀ a : Byte, a ≠ 0#8 → ∃! b : Byte, gfmul a b = 0x01#8)

/-- R84: multiplication by 02 in its two closed forms, and the pseudo-instruction xtime. -/
def Obligations.XtimeClosedForms : Prop :=
  ∀ x : Byte,
    (gfmul 0x02#8 x).toNat = (x.toNat <<< 1) ^^^ (if x.getLsbD 7 then 0x11B else 0) ∧
    (gfmul 0x02#8 x).toNat = ((x.toNat <<< 1) &&& 0xFF) ^^^ (if x.getLsbD 7 then 0x1B else 0) ∧
    xtime x = .gfmul 0x02#8 x

/-- R86: the powers of 02 repeat with period exactly 51; the inverse of 02; the alternate seed. -/
def Obligations.PowersOfTwoHavePeriod51 : Prop :=
  (∀ n m : Nat, gfPow 0x02#8 n = gfPow 0x02#8 m ↔ n % 51 = m % 51) ∧
  gfPow 0x02#8 51 = 0x01#8 ∧
  gfmul 0x02#8 0x8D#8 = 0x01#8 ∧
  gfmul 0x02#8 0xCB#8 = 0x8D#8 ∧
  gfmul (gfPow 0x02#8 2) 0xCB#8 = 0x01#8

/-- R80, R82: on a pass the shifted value is at most 0x1FE in 9 bits, nothing is lost by the shift, and
the reduced value is below 0x100. -/
def Obligations.NineBitsSuffice : Prop :=
  ∀ x : Wide, x.toNat < 0x100 →
    (x <<< 1).toNat = 2 * x.toNat ∧ (x <<< 1).toNat ≤ 0x1FE ∧ (shiftReduce x).toNat < 0x100

/-- R80, R87: the loop needs no more passes than the operand has bits, so that the model's bound of eight
passes cuts nothing off (DEDUCED, log entry 15). -/
def Obligations.LoopPassesSuffice : Prop :=
  ∀ (k n : Nat) (result : Byte) (x : Wide) (y : Byte), y.toNat < 2 ^ k → k ≤ n →
    gfLoop n result x y = gfLoop k result x y

/-- R96 (and R90, R28): the primary table is the fold by doubling, its entries are the powers of 02 and the
listed values, it equals REFTAB at every index, and so the self-test passes. -/
def Obligations.PrimaryTableIsReference : Prop :=
  primaryTable[0]? = some 0x01#8 ∧
  (∀ i < 28, ∃ v, primaryTable[i]? = some v ∧ primaryTable[i + 1]? = some (gfmul 0x02#8 v)) ∧
  (∀ i < 29, primaryTable[i]? = some (gfPow 0x02#8 i)) ∧
  primaryTable.toList =
    [0x01, 0x02, 0x04, 0x08, 0x10, 0x20, 0x40, 0x80, 0x1b, 0x36, 0x6c, 0xd8, 0xab, 0x4d, 0x9a,
     0x2f, 0x5e, 0xbc, 0x63, 0xc6, 0x97, 0x35, 0x6a, 0xd4, 0xb3, 0x7d, 0xfa, 0xef, 0xc5] ∧
  (∀ i < 29, refTable[i]? = primaryTable[i]?) ∧
  validateTable primaryTable = (0x1D#8, false)

/-- R93: each pass of the alternate recurrence is a doubling, so compute_rc(round) is the seed 0xCB
doubled round + 1 times. -/
def Obligations.AlternateRecurrenceDoubles : Prop :=
  (∀ (n : Nat) (v : Byte), rcLoop n v = (fun x => gfmul 0x02#8 x)^[n] v) ∧
  (∀ r : Byte, computeRc r = (fun x => gfmul 0x02#8 x)^[r.toNat + 1] 0xCB#8)

/-- R95: the index relation between the two generators, for every round of the alternate one: n + 1 passes
from the seed 0xCB give the power of 02 that lies 50 places on, modulo 51. -/
def Obligations.AlternateIndexRelation : Prop :=
  (∀ n : Nat, rcLoop (n + 1) 0xCB#8 = gfPow 0x02#8 ((n + 50) % 51)) ∧
  (∀ r : Byte, computeRc r = gfPow 0x02#8 ((r.toNat + 50) % 51)) ∧
  (∀ r : Byte, 1 ≤ r.toNat → r.toNat ≤ 29 → primaryTable[r.toNat - 1]? = some (computeRc r)) ∧
  (∀ i < 29, primaryTable[i]? = some (computeRc (BitVec.ofNat 8 (i + 1)))) ∧
  gfPow 0x02#8 49 = 0xCB#8 ∧
  computeRc 0#8 = 0x8D#8 ∧ gfmul 0x02#8 0x8D#8 = 0x01#8 ∧
  primaryTable[0]? ≠ some (computeRc 0#8)

/-! ## The commands (R72, R73 and the family rules): exec answers this next state -/

/-- R81: GFMUL writes the product, sets DONE and returns to IDLE, on every operand and in every state; with
the rule's corner cases. -/
def Obligations.GfmulCompletes : Prop :=
  (∀ (a b : Byte) (s : State),
    exec (.gfmul a b) s = .next { s with res := gfmul a b, done := true, phase := .idle }) ∧
  (∀ (a : Byte) (s : State),
    exec (.gfmul a 0x00#8) s = .next { s with res := 0x00#8, done := true, phase := .idle } ∧
    exec (.gfmul 0x00#8 a) s = .next { s with res := 0x00#8, done := true, phase := .idle } ∧
    exec (.gfmul a 0x01#8) s = .next { s with res := a, done := true, phase := .idle } ∧
    exec (.gfmul 0x01#8 a) s = .next { s with res := a, done := true, phase := .idle })

/-- R91: RCON writes rctab[i], for every index 0..28 and whatever the table holds. -/
def Obligations.RconCompletes : Prop :=
  ∀ (i : Byte) (s : State) (t : RcTable), i.toNat ≤ 28 → s.rctab = some t →
    ∃ v, t[i.toNat]? = some v ∧
      exec (.rcon i) s = .next { s with res := v, done := true, phase := .idle }

/-- R91, R96, R97: in a state of a run, RCON i writes the i-th power of 02. -/
def Obligations.RconReadsPowerOfTwo : Prop :=
  ∀ (i : Byte) (s : State), i.toNat ≤ 28 → RunInv s → s.phase = .busy →
    exec (.rcon i) s = .next { s with res := gfPow 0x02#8 i.toNat, done := true, phase := .idle }

/-- R92: REFRD writes the i-th value of the reference list, for every index 0..28, in every state. -/
def Obligations.RefrdCompletes : Prop :=
  ∀ (i : Byte) (s : State), i.toNat ≤ 28 →
    ∃ v : Byte,
      ([0x01, 0x02, 0x04, 0x08, 0x10, 0x20, 0x40, 0x80, 0x1b, 0x36, 0x6c, 0xd8, 0xab, 0x4d, 0x9a,
        0x2f, 0x5e, 0xbc, 0x63, 0xc6, 0x97, 0x35, 0x6a, 0xd4, 0xb3, 0x7d, 0xfa, 0xef, 0xc5] :
          List Byte)[i.toNat]? = some v ∧
      exec (.refrd i) s = .next { s with res := v, done := true, phase := .idle }

/-- R94: RCONALT writes the seed 0xCB doubled r + 1 times, for every round, in every state (the table is
not read). -/
def Obligations.RconaltCompletes : Prop :=
  ∀ (r : Byte) (s : State),
    exec (.rconalt r) s =
      .next { s with res := (fun x => gfmul 0x02#8 x)^[r.toNat + 1] 0xCB#8, done := true, phase := .idle }

/-- R110: VALIDATE writes 29 when the table agrees with REFTAB, else the first index that differs, and
then sets ERR_MISMATCH; whatever the table holds. -/
def Obligations.ValidateFindsFirstMismatch : Prop :=
  ∀ (s : State) (t : RcTable), s.rctab = some t →
    ((∀ j < 29, t[j]? = refTable[j]?) →
      exec .validate s = .next { s with res := 29#8, done := true, phase := .idle }) ∧
    (∀ k < 29, (∀ j < k, t[j]? = refTable[j]?) → t[k]? ≠ refTable[k]? →
      exec .validate s =
        .next { s with res := BitVec.ofNat 8 k, errMismatch := true, done := true, phase := .idle })

/-- R111: XCHECK writes 29 when compute_rc(i + 1) = rctab[i] throughout, else the first index where it does
not hold, and then sets ERR_MISMATCH; whatever the table holds. -/
def Obligations.XcheckFindsFirstMismatch : Prop :=
  ∀ (s : State) (t : RcTable), s.rctab = some t →
    ((∀ j < 29, t[j]? = some (computeRc (BitVec.ofNat 8 (j + 1)))) →
      exec .xcheck s = .next { s with res := 29#8, done := true, phase := .idle }) ∧
    (∀ k < 29, (∀ j < k, t[j]? = some (computeRc (BitVec.ofNat 8 (j + 1)))) →
      t[k]? ≠ some (computeRc (BitVec.ofNat 8 (k + 1))) →
      exec .xcheck s =
        .next { s with res := BitVec.ofNat 8 k, errMismatch := true, done := true, phase := .idle })

/-- R112: in every state of a run in which a command can run, both checks pass: RES = 0x1D and
ERR_MISMATCH unchanged. -/
def Obligations.BothChecksPass : Prop :=
  ∀ s : State, RunInv s → s.phase = .busy →
    exec .validate s = .next { s with res := 0x1D#8, done := true, phase := .idle } ∧
    exec .xcheck s = .next { s with res := 0x1D#8, done := true, phase := .idle }

/-- R29, U8: the commands that read RCTAB fault while it holds no value. -/
def Obligations.AbsentTableFaults : Prop :=
  ∀ s : State, s.rctab = none →
    (∀ i : Byte, exec (.rcon i) s = .fault .rctabAbsent) ∧
    exec .validate s = .fault .rctabAbsent ∧
    exec .xcheck s = .fault .rctabAbsent

/-- Where exec stops on operands or latches that accept never lets through (the model's choice, log entry
7): an index past the tables, and a BUSY phase whose CMD holds no legal command. -/
def Obligations.UnacceptedWordsStop : Prop :=
  (∀ (i : Byte) (s : State), 28 < i.toNat → s.rctab.isSome = true →
    exec (.rcon i) s = .fault (.indexPastTable i)) ∧
  (∀ (i : Byte) (s : State), 28 < i.toNat → exec (.refrd i) s = .fault (.indexPastTable i)) ∧
  (∀ s : State, s.phase = .busy → isCommand (decode s.cmd) = false →
    coreTurn s = .fault (.latchNotLegal s.cmd))

/-- R72, the frame of all six commands: a completion writes RES, DONE, the phase and, for VALIDATE and
XCHECK alone, possibly ERR_MISMATCH, which it never clears; CMD, ERR_ILLEGAL, ERR_RANGE, ERR_OVERRUN and
RCTAB are unchanged (and the model's own two fields). -/
def Obligations.CompletionFrame : Prop :=
  ∀ (i : Instr) (s t : State), exec i s = .next t →
    t.cmd = s.cmd ∧ t.errIllegal = s.errIllegal ∧ t.errRange = s.errRange ∧
    t.errOverrun = s.errOverrun ∧ t.rctab = s.rctab ∧ t.schedule = s.schedule ∧
    t.readback = s.readback ∧ t.done = true ∧ t.phase = .idle ∧
    (s.errMismatch = true → t.errMismatch = true) ∧
    (t.errMismatch ≠ s.errMismatch → i = .validate ∨ i = .xcheck)

/-- R98: between resets a command's result depends on its operands alone: two states of runs, however
they differ, give one result. -/
def Obligations.ResultDependsOnOperandsAlone : Prop :=
  ∀ (i : Instr) (s₁ s₂ t₁ t₂ : State), RunInv s₁ → RunInv s₂ → s₁.phase = .busy → s₂.phase = .busy →
    exec i s₁ = .next t₁ → exec i s₂ = .next t₂ → t₁.res = t₂.res

/-! ## Host accesses (20_memory.md, 30_encoding.md R70, R71) -/

/-- R70: accept, by what decode answers. -/
def Obligations.AcceptByDecode : Prop :=
  ∀ (base : Nat) (v : Word) (s : State), base % 16 = 0 → s.phase = .idle →
    (decode v = .illegal →
      hostWrite base (base + 0x0) 4 v s = .next { s with cmd := v, done := false, errIllegal := true }) ∧
    (decode v = .outOfRange →
      hostWrite base (base + 0x0) 4 v s = .next { s with cmd := v, done := false, errRange := true }) ∧
    (∀ i, decode v = .cmd i →
      hostWrite base (base + 0x0) 4 v s = .next { s with cmd := v, done := false, phase := .busy })

/-- R71: a CMD write outside IDLE is dropped, whatever the word. -/
def Obligations.DropOutsideIdle : Prop :=
  ∀ (base : Nat) (v : Word) (s : State), base % 16 = 0 → s.phase ≠ .idle →
    hostWrite base (base + 0x0) 4 v s = .next { s with errOverrun := true }

/-- R126: a CMD write raises at most one of the three errors, in the order overrun, illegal, range. -/
def Obligations.OneErrorPerCmdWrite : Prop :=
  ∀ (base : Nat) (v : Word) (s t : State), base % 16 = 0 → hostWrite base base 4 v s = .next t →
    t.errMismatch = s.errMismatch ∧
    (if s.phase ≠ .idle then
      t.errOverrun = true ∧ t.errIllegal = s.errIllegal ∧ t.errRange = s.errRange
    else t.errOverrun = s.errOverrun ∧
      (if decode v = .illegal then t.errIllegal = true ∧ t.errRange = s.errRange
      else t.errIllegal = s.errIllegal ∧
        (if decode v = .outOfRange then t.errRange = true else t.errRange = s.errRange)))

/-- R46: a STATUS write clears each sticky bit written 1 and changes nothing else, in every phase; 0x7C
clears all five; a second write of the same value changes nothing. -/
def Obligations.StatusWriteClears : Prop :=
  ∀ (base : Nat) (v : Word) (s : State), base % 16 = 0 →
    hostWrite base (base + 0x8) 4 v s = .next
      { s with
        done := s.done && !v.getLsbD 2
        errIllegal := s.errIllegal && !v.getLsbD 3
        errRange := s.errRange && !v.getLsbD 4
        errMismatch := s.errMismatch && !v.getLsbD 5
        errOverrun := s.errOverrun && !v.getLsbD 6 } ∧
    hostWrite base (base + 0x8) 4 0x7C#32 s = .next
      { s with
        done := false
        errIllegal := false
        errRange := false
        errMismatch := false
        errOverrun := false } ∧
    (∀ t, hostWrite base (base + 0x8) 4 v s = .next t →
      hostWrite base (base + 0x8) 4 v t = .next t)

/-- R42: what a read of each register returns; no read changes the block's state, and a second read returns
the same value. -/
def Obligations.ReadsReturnRegisters : Prop :=
  ∀ (base : Nat) (s : State), base % 16 = 0 →
    hostRead base (base + 0x0) 4 s = .next { s with readback := some s.cmd } ∧
    hostRead base (base + 0x4) 4 s = .next { s with readback := some (BitVec.ofNat 32 s.res.toNat) } ∧
    hostRead base (base + 0x8) 4 s = .next { s with readback := some (statusWord s) } ∧
    (∀ off ∈ [0x0, 0x4, 0x8], ∀ t, hostRead base (base + off) 4 s = .next t →
      hostRead base (base + off) 4 t = .next t)

/-- R26: the bits of STATUS; READY and STFAIL are never both 1, and BUSY implies READY. -/
def Obligations.StatusComposition : Prop :=
  ∀ s : State,
    ((statusWord s).getLsbD 0 = true ↔ s.phase = .idle ∨ s.phase = .busy) ∧
    ((statusWord s).getLsbD 1 = true ↔ s.phase = .busy) ∧
    (statusWord s).getLsbD 2 = s.done ∧
    (statusWord s).getLsbD 3 = s.errIllegal ∧
    (statusWord s).getLsbD 4 = s.errRange ∧
    (statusWord s).getLsbD 5 = s.errMismatch ∧
    (statusWord s).getLsbD 6 = s.errOverrun ∧
    ((statusWord s).getLsbD 7 = true ↔ s.phase = .failed) ∧
    (∀ k, 8 ≤ k → (statusWord s).getLsbD k = false) ∧
    ¬((statusWord s).getLsbD 0 = true ∧ (statusWord s).getLsbD 7 = true) ∧
    ((statusWord s).getLsbD 1 = true → (statusWord s).getLsbD 0 = true)

/-- R41, R43, R48: inside the window an access is performed exactly when it is 4 bytes wide, 4-byte aligned
and at offset 0, 4 or 8, and is no write to RESULT; every other access raises AccessFault. -/
def Obligations.UnadmittedAccessFaults : Prop :=
  ∀ (base addr n : Nat) (s : State), base % 16 = 0 → base ≤ addr → addr ≤ base + 15 →
    (if n = 4 ∧ addr % 4 = 0 ∧ addr - base ∈ [0x0, 0x4, 0x8] then
      ∃ t, hostRead base addr n s = .next t
    else hostRead base addr n s = .fault (.accessFault addr n .read)) ∧
    (∀ v : Word,
      if n = 4 ∧ addr % 4 = 0 ∧ addr - base ∈ [0x0, 0x8] then
        ∃ t, hostWrite base addr n v s = .next t
      else hostWrite base addr n v s = .fault (.accessFault addr n .write))

/-- The model's choice (log entry 5) where the spec leaves it to the platform (R40, U14): an access outside
the window is refused by name. -/
def Obligations.OutsideWindowRefused : Prop :=
  ∀ (base addr n : Nat) (v : Word) (s : State), addr < base ∨ base + 15 < addr →
    hostRead base addr n s = .refused (.outsideWindow addr n .read) ∧
    hostWrite base addr n v s = .refused (.outsideWindow addr n .write)

/-- R155: no host access disables an enabled core step: phase, CMD and RCTAB stay, so the step to come is
the same one. -/
def Obligations.HostAccessKeepsCoreStepEnabled : Prop :=
  ∀ (base : Nat) (s t : State), base % 16 = 0 → s.phase = .init ∨ s.phase = .busy →
    ((∃ addr n, hostRead base addr n s = .next t) ∨ (∃ addr n v, hostWrite base addr n v s = .next t)) →
    t.phase = s.phase ∧ t.cmd = s.cmd ∧ t.rctab = s.rctab ∧ t.res = s.res

/-! ## Reset, initialisation and the steps (70_reset_and_hazards.md) -/

/-- R140: right after reset every piece of the block's state has its reset value and STATUS reads 0. -/
def Obligations.ResetStateValues : Prop :=
  State.reset.phase = .init ∧ State.reset.cmd = 0x00000000#32 ∧ State.reset.res = 0x00#8 ∧
  State.reset.done = false ∧ State.reset.errIllegal = false ∧ State.reset.errRange = false ∧
  State.reset.errMismatch = false ∧ State.reset.errOverrun = false ∧ State.reset.rctab = none ∧
  statusWord State.reset = 0x00000000#32

/-- R140: a reset, in every phase and state, puts every piece of the block's state to its reset value, so
that a command in BUSY is abandoned and STATUS reads 0x00000000. -/
def Obligations.ResetEventRestartsBlock : Prop :=
  ∀ (base : Nat) (s : State),
    ∃ t, takeEvent base .reset s = .next t ∧
      t.phase = .init ∧ t.cmd = 0x00000000#32 ∧ t.res = 0x00#8 ∧ t.done = false ∧
      t.errIllegal = false ∧ t.errRange = false ∧ t.errMismatch = false ∧ t.errOverrun = false ∧
      t.rctab = none ∧ statusWord t = 0x00000000#32

/-- R142: the init step fills RCTAB with the primary table, the self-test passes and the phase becomes
IDLE; CMD, RES and the sticky flags are unchanged; from reset STATUS then reads 0x00000001. -/
def Obligations.InitStepReachesIdle : Prop :=
  (∀ s : State, s.phase = .init →
    coreTurn s = .next { s with rctab := some primaryTable, phase := .idle }) ∧
  (∃ t, coreTurn State.reset = .next t ∧ statusWord t = 0x00000001#32)

/-- R6: BASE is a multiple of 16 below 2^ADDR_BITS. -/
def Obligations.BaseIsAdmissible : Prop :=
  Config.base % 16 = 0 ∧ Config.base < 2 ^ Config.addrBits

/-- A step takes the oldest scheduled event, and with none left the core's turn (the model's form of R52 and
R155, log entries 1 and 2). -/
def Obligations.StepTakesOldestEvent : Prop :=
  ∀ s : State,
    (∀ (e : Event) (rest : List Event), s.schedule = e :: rest →
      step s = takeEvent Config.base e { s with schedule := rest }) ∧
    (s.schedule = [] → step s = coreTurn s)

/-- A step runs the decoded instruction (R30, R72): when the core moves in BUSY and CMD holds the bytes of a
well-formed command i, the step is exec of i on the state without the spent event; and a word placed for
the next step is run by it. The reading from bytes is the model's (log entry 16), and so is the placing
(log entry 8). -/
def Obligations.StepRunsLatchedCommand : Prop :=
  (∀ (s : State) (i : Instr), coreMoves s = true → s.phase = .busy →
    decodeBytes (lanes s.cmd) = some (.cmd i, []) → wellFormed i = true →
    step s = exec i { s with schedule := s.schedule.tail }) ∧
  (∀ (s : State) (w : Nat) (i : Instr), decodeTableWord 32 w = some i →
    step (s.withFetchWord 32 w) =
      exec i { s with
        phase := .busy
        cmd := BitVec.ofNat 32 w
        rctab := some (s.rctab.getD primaryTable) })

/-- In IDLE and FAILED no core step is enabled (R27, R136). That a core turn there is a step at all, one
which changes nothing, is the model's form and no rule of the spec (DESIGN CHOICE, log entry 2). -/
def Obligations.CoreRestsInIdleAndFailed : Prop :=
  ∀ s : State, s.phase = .idle ∨ s.phase = .failed → coreTurn s = .next s

/-! ## Rules of the whole machine -/

/-- The invariant holds at reset (R29, R72). -/
def Obligations.RunInvAtReset : Prop := RunInv State.reset

/-- The invariant is kept by every step from every state that meets it: RCTAB is absent in INIT and the
primary table after it (R29, R90), and in BUSY CMD holds a legal command (R72). -/
def Obligations.StepKeepsRunInv : Prop :=
  ∀ s t : State, RunInv s → step s = .next t → RunInv t

/-- R112, R123, R142: under the invariant no step reaches FAILED or sets ERR_MISMATCH. -/
def Obligations.NeverFailsNeverMismatches : Prop :=
  ∀ s t : State, RunInv s → step s = .next t →
    (s.phase ≠ .failed → t.phase ≠ .failed) ∧
    (s.errMismatch = false → t.errMismatch = false)

/-- R27: the only transitions of the phase, in every state; FAILED is left only by reset. -/
def Obligations.PhaseMovesOnlyAsStated : Prop :=
  ∀ s t : State, step s = .next t → t.phase ≠ s.phase →
    (resetMoves s = true ∧ t.phase = .init) ∨
    (coreMoves s = true ∧ s.phase = .init ∧ t.phase = .idle) ∨
    (coreMoves s = true ∧ s.phase = .init ∧ t.phase = .failed) ∨
    (s.phase = .idle ∧ t.phase = .busy ∧
      ∃ v i, cmdWriteNext Config.base s = some v ∧ decode v = .cmd i) ∨
    (coreMoves s = true ∧ s.phase = .busy ∧ t.phase = .idle)

/-- R23, R24, R29, R90: CMD changes only by reset or an undropped CMD write, RES only by reset or a
completion, RCTAB only by reset or the init step. -/
def Obligations.RegistersWrittenOnlyAsStated : Prop :=
  ∀ s t : State, step s = .next t →
    (t.cmd ≠ s.cmd → (resetMoves s = true ∧ t.cmd = 0) ∨
      (s.phase = .idle ∧ cmdWriteNext Config.base s = some t.cmd)) ∧
    (t.res ≠ s.res → (resetMoves s = true ∧ t.res = 0) ∨ (coreMoves s = true ∧ s.phase = .busy)) ∧
    (t.rctab ≠ s.rctab → (resetMoves s = true ∧ t.rctab = none) ∨
      (coreMoves s = true ∧ s.phase = .init ∧ t.rctab = some primaryTable))

/-- R25, the "set by" column: what turns each sticky bit on. -/
def Obligations.StickyBitsSetOnlyAsStated : Prop :=
  ∀ s t : State, step s = .next t →
    (s.done = false → t.done = true → coreMoves s = true ∧ s.phase = .busy) ∧
    (s.errIllegal = false → t.errIllegal = true →
      s.phase = .idle ∧ ∃ v, cmdWriteNext Config.base s = some v ∧ decode v = .illegal) ∧
    (s.errRange = false → t.errRange = true →
      s.phase = .idle ∧ ∃ v, cmdWriteNext Config.base s = some v ∧ decode v = .outOfRange) ∧
    (s.errMismatch = false → t.errMismatch = true →
      coreMoves s = true ∧ s.phase = .busy ∧
      (decode s.cmd = .cmd .validate ∨ decode s.cmd = .cmd .xcheck)) ∧
    (s.errOverrun = false → t.errOverrun = true →
      s.phase ≠ .idle ∧ ∃ v, cmdWriteNext Config.base s = some v)

/-- R25, the "cleared by" column: what turns each sticky bit off; an error is cleared by nothing but a STATUS
write of 1 to its bit or a reset. -/
def Obligations.StickyBitsClearedOnlyAsStated : Prop :=
  ∀ s t : State, step s = .next t → resetMoves s = false →
    (s.done = true → t.done = false →
      (s.phase = .idle ∧ ∃ v, cmdWriteNext Config.base s = some v) ∨
      (∃ v, statusWriteNext Config.base s = some v ∧ v.getLsbD 2 = true)) ∧
    (s.errIllegal = true → t.errIllegal = false →
      ∃ v, statusWriteNext Config.base s = some v ∧ v.getLsbD 3 = true) ∧
    (s.errRange = true → t.errRange = false →
      ∃ v, statusWriteNext Config.base s = some v ∧ v.getLsbD 4 = true) ∧
    (s.errMismatch = true → t.errMismatch = false →
      ∃ v, statusWriteNext Config.base s = some v ∧ v.getLsbD 5 = true) ∧
    (s.errOverrun = true → t.errOverrun = false →
      ∃ v, statusWriteNext Config.base s = some v ∧ v.getLsbD 6 = true)

/-- Safety: from a state that meets the invariant, a step whose event the block admits always answers a next
state; so only a bus error (R43) or an access outside the window (R40) ends a run. -/
def Obligations.AdmittedStepsNeverStop : Prop :=
  ∀ s : State, RunInv s → (∀ e, s.schedule.head? = some e → eventAdmitted Config.base e = true) →
    ∃ t, step s = .next t

/-- R155, R157: a run over any admitted schedule, of any length and in any order, from a state that meets the
invariant, answers a next state after one step more than its events, and that state is quiescent (the
last core step is the model's form of weak fairness, log entry 2). -/
def Obligations.AdmittedRunsEndQuiescent : Prop :=
  ∀ s : State, RunInv s → (∀ e ∈ s.schedule, eventAdmitted Config.base e = true) →
    ∃ t, core.run (s.schedule.length + 1) s = .next t ∧
      quiescent t = true ∧ t.schedule = [] ∧ RunInv t

/-- R66, R70, R72, R150: the two-step life of a command: written in IDLE it is accepted, RESULT still reads the
old result while BUSY, the core's turn completes it, and RESULT then reads the new one with STATUS showing
READY and DONE; all four error bits stay as they were before the write, so a clean state stays clean (R157,
with the model's choice of bits, log entry 20). -/
def Obligations.CommandLifecycle : Prop :=
  ∀ (base : Nat) (s : State) (i : Instr), base % 16 = 0 → RunInv s → s.phase = .idle →
    wellFormed i = true →
    ∃ u t,
      hostWrite base base 4 (encode i) s = .next u ∧
      u.phase = .busy ∧ u.cmd = encode i ∧ u.done = false ∧
      hostRead base (base + 4) 4 u = .next { u with readback := some (BitVec.ofNat 32 s.res.toNat) } ∧
      exec i u = .next t ∧ coreTurn u = .next t ∧
      t.phase = .idle ∧ t.done = true ∧
      t.errIllegal = s.errIllegal ∧ t.errRange = s.errRange ∧
      t.errMismatch = s.errMismatch ∧ t.errOverrun = s.errOverrun ∧
      hostRead base (base + 4) 4 t = .next { t with readback := some (BitVec.ofNat 32 t.res.toNat) } ∧
      (statusWord t).getLsbD 0 = true ∧ (statusWord t).getLsbD 1 = false ∧
      (statusWord t).getLsbD 2 = true ∧
      (clean s = true → clean t = true)

/-- R76, R54: on the STATUS value a host reads, wait ends exactly when no command is BUSY, and waitready exactly
when the init step has been taken. -/
def Obligations.PollingSeesPhase : Prop :=
  ∀ s : State,
    (waitEnds (statusWord s) = true ↔ s.phase ≠ .busy) ∧
    (waitreadyEnds (statusWord s) = true ↔ s.phase ≠ .init)

/-- R151, the overrun race (95_test_vectors.md P3): two CMD writes without a wait have two outcomes, by
whether the core's turn falls between them. With it, the second command is in CMD and no overrun is
recorded; without it, the second word is lost, ERR_OVERRUN is set and the first command completes. -/
def Obligations.OverrunRaceHasTwoOutcomes : Prop :=
  ∀ (s : State) (i j : Instr), RunInv s → s.phase = .idle → wellFormed i = true → wellFormed j = true →
    (∃ t, core.run 4 { s with schedule :=
        [writeEvent Config.base .cmd (encode i), .core, writeEvent Config.base .cmd (encode j), .core] }
          = .next t ∧
      t.cmd = encode j ∧ t.errOverrun = s.errOverrun ∧ t.phase = .idle ∧ t.done = true) ∧
    (∃ t u, core.run 4 { s with schedule :=
        [writeEvent Config.base .cmd (encode i), writeEvent Config.base .cmd (encode j), .core, .core] }
          = .next t ∧
      exec i { s with phase := .busy, cmd := encode i } = .next u ∧ t.res = u.res ∧
      t.cmd = encode i ∧ t.errOverrun = true ∧ t.phase = .idle ∧ t.done = true)

/-- R152: DONE written 1 while BUSY is set again by the completion; written 1 after it, DONE is cleared and
the result stays in RES; and every CMD write that is not dropped clears DONE. -/
def Obligations.DoneClearedWhileBusyIsSetAgain : Prop :=
  (∀ (base : Nat) (v : Word) (s : State), base % 16 = 0 → v.getLsbD 2 = true → RunInv s → s.phase = .busy →
    ∃ u t w,
      hostWrite base (base + 8) 4 v s = .next u ∧ u.done = false ∧
      coreTurn u = .next t ∧ t.done = true ∧ t.phase = .idle ∧
      hostWrite base (base + 8) 4 v t = .next w ∧ w.done = false ∧ w.res = t.res) ∧
  (∀ (base : Nat) (v : Word) (s : State), base % 16 = 0 → s.phase = .idle →
    ∃ t, hostWrite base base 4 v s = .next t ∧ t.cmd = v ∧ t.done = false)
end

