-- ==== Sys2Proof/Laws/Decode.lean ====
section
/-!
SUPPORT. The fields of a word and what decode can answer.
-/

namespace Sys2Proof

/-- A field of two values side by side, inside the low one. -/
theorem extract_append_low {n m : Nat} (x : BitVec n) (y : BitVec m) (lo len : Nat)
    (h : lo + len ≤ m) : (x ++ y).extractLsb' lo len = y.extractLsb' lo len := by
  ext k hk
  simp [BitVec.getLsbD_append, show lo + k < m by omega]

/-- A field of two values side by side, inside the high one. -/
theorem extract_append_high {n m : Nat} (x : BitVec n) (y : BitVec m) (lo len : Nat)
    (h : m ≤ lo) : (x ++ y).extractLsb' lo len = x.extractLsb' (lo - m) len := by
  ext k hk
  simp [BitVec.getLsbD_append, show ¬ lo + k < m by omega, show lo + k - m = lo - m + k by omega]

@[simp] theorem opField_append (op : BitVec 4) (rsv : BitVec 12) (a b : Byte) :
    opField (op ++ rsv ++ a ++ b) = op :=
  (extract_append_high (op ++ rsv ++ a) b 28 4 (by decide)).trans <|
    (extract_append_high (op ++ rsv) a 20 4 (by decide)).trans <|
      (extract_append_high op rsv 12 4 (by decide)).trans (by simp)

@[simp] theorem rsvField_append (op : BitVec 4) (rsv : BitVec 12) (a b : Byte) :
    rsvField (op ++ rsv ++ a ++ b) = rsv :=
  (extract_append_high (op ++ rsv ++ a) b 16 12 (by decide)).trans <|
    (extract_append_high (op ++ rsv) a 8 12 (by decide)).trans <|
      (extract_append_low op rsv 0 12 (by decide)).trans (by simp)

@[simp] theorem aField_append (op : BitVec 4) (rsv : BitVec 12) (a b : Byte) :
    aField (op ++ rsv ++ a ++ b) = a :=
  (extract_append_high (op ++ rsv ++ a) b 8 8 (by decide)).trans <|
    (extract_append_low (op ++ rsv) a 0 8 (by decide)).trans (by simp)

@[simp] theorem bField_append (op : BitVec 4) (rsv : BitVec 12) (a b : Byte) :
    bField (op ++ rsv ++ a ++ b) = b :=
  (extract_append_low (op ++ rsv ++ a) b 0 8 (by decide)).trans (by simp)

/-- decode on a word given by its fields. -/
theorem decode_append (op : BitVec 4) (rsv : BitVec 12) (a b : Byte) :
    decode (op ++ rsv ++ a ++ b) = if rsv ≠ 0#12 then .illegal else decodeOp op a b := by
  simp only [decode, opField_append, rsvField_append, aField_append, bField_append]

@[simp] theorem decode_packWord (op : BitVec 4) (a b : Byte) :
    decode (packWord op a b) = decodeOp op a b := by
  rw [packWord, decode_append]
  simp

theorem opField_toNat (w : Word) : (opField w).toNat = w.toNat / 2 ^ 28 := by
  have := w.isLt
  simp [opField, BitVec.extractLsb'_toNat, Nat.shiftRight_eq_div_pow]
  omega

theorem rsvField_toNat (w : Word) : (rsvField w).toNat = w.toNat / 2 ^ 16 % 2 ^ 12 := by
  simp [rsvField, BitVec.extractLsb'_toNat, Nat.shiftRight_eq_div_pow]

theorem aField_toNat (w : Word) : (aField w).toNat = w.toNat / 2 ^ 8 % 2 ^ 8 := by
  simp [aField, BitVec.extractLsb'_toNat, Nat.shiftRight_eq_div_pow]

theorem bField_toNat (w : Word) : (bField w).toNat = w.toNat % 2 ^ 8 := by
  simp [bField, BitVec.extractLsb'_toNat]

/-- A word is put together from its four fields. -/
theorem word_of_fields (w : Word) : opField w ++ rsvField w ++ aField w ++ bField w = w := by
  apply BitVec.eq_of_toNat_eq
  have h : (opField w ++ rsvField w ++ aField w ++ bField w : BitVec (4 + 12 + 8 + 8)).toNat =
      ((((opField w).toNat <<< 12 ||| (rsvField w).toNat) <<< 8 ||| (aField w).toNat) <<< 8 |||
        (bField w).toNat) := by
    simp only [BitVec.toNat_append]
  refine Eq.trans h ?_
  rw [← Nat.shiftLeft_add_eq_or_of_lt (rsvField w).isLt, ← Nat.shiftLeft_add_eq_or_of_lt (aField w).isLt,
    ← Nat.shiftLeft_add_eq_or_of_lt (bField w).isLt, opField_toNat, rsvField_toNat, aField_toNat,
    bField_toNat]
  simp only [Nat.shiftLeft_eq]
  omega

@[simp] theorem isCommand_iff (d : Decoded) : isCommand d = true ↔ ∃ i, d = .cmd i := by
  cases d <;> simp [isCommand]

end Sys2Proof
end

