-- ==== Sys2Proof/Laws/State.lean ====
section
/-!
SUPPORT. What each update of the state leaves in each field, one lemma per field per update.
-/

namespace Sys2Proof.Machine

@[simp] theorem complete_phase (r : Byte) (m : Bool) (s : State) : (complete r m s).phase = .idle := rfl
@[simp] theorem complete_cmd (r : Byte) (m : Bool) (s : State) : (complete r m s).cmd = s.cmd := rfl
@[simp] theorem complete_res (r : Byte) (m : Bool) (s : State) : (complete r m s).res = r := rfl
@[simp] theorem complete_done (r : Byte) (m : Bool) (s : State) : (complete r m s).done = true := rfl
@[simp] theorem complete_errIllegal (r : Byte) (m : Bool) (s : State) : (complete r m s).errIllegal = s.errIllegal := rfl
@[simp] theorem complete_errRange (r : Byte) (m : Bool) (s : State) : (complete r m s).errRange = s.errRange := rfl
@[simp] theorem complete_errMismatch (r : Byte) (m : Bool) (s : State) : (complete r m s).errMismatch = (if m then true else s.errMismatch) := rfl
@[simp] theorem complete_errOverrun (r : Byte) (m : Bool) (s : State) : (complete r m s).errOverrun = s.errOverrun := rfl
@[simp] theorem complete_rctab (r : Byte) (m : Bool) (s : State) : (complete r m s).rctab = s.rctab := rfl
@[simp] theorem complete_schedule (r : Byte) (m : Bool) (s : State) : (complete r m s).schedule = s.schedule := rfl
@[simp] theorem complete_readback (r : Byte) (m : Bool) (s : State) : (complete r m s).readback = s.readback := rfl

@[simp] theorem dropCmd_phase (s : State) : (dropCmd s).phase = s.phase := rfl
@[simp] theorem dropCmd_cmd (s : State) : (dropCmd s).cmd = s.cmd := rfl
@[simp] theorem dropCmd_res (s : State) : (dropCmd s).res = s.res := rfl
@[simp] theorem dropCmd_done (s : State) : (dropCmd s).done = s.done := rfl
@[simp] theorem dropCmd_errIllegal (s : State) : (dropCmd s).errIllegal = s.errIllegal := rfl
@[simp] theorem dropCmd_errRange (s : State) : (dropCmd s).errRange = s.errRange := rfl
@[simp] theorem dropCmd_errMismatch (s : State) : (dropCmd s).errMismatch = s.errMismatch := rfl
@[simp] theorem dropCmd_errOverrun (s : State) : (dropCmd s).errOverrun = true := rfl
@[simp] theorem dropCmd_rctab (s : State) : (dropCmd s).rctab = s.rctab := rfl
@[simp] theorem dropCmd_schedule (s : State) : (dropCmd s).schedule = s.schedule := rfl
@[simp] theorem dropCmd_readback (s : State) : (dropCmd s).readback = s.readback := rfl

@[simp] theorem clearSticky_phase (v : Word) (s : State) : (clearSticky v s).phase = s.phase := rfl
@[simp] theorem clearSticky_cmd (v : Word) (s : State) : (clearSticky v s).cmd = s.cmd := rfl
@[simp] theorem clearSticky_res (v : Word) (s : State) : (clearSticky v s).res = s.res := rfl
@[simp] theorem clearSticky_done (v : Word) (s : State) : (clearSticky v s).done = clearIf (v.getLsbD 2) s.done := rfl
@[simp] theorem clearSticky_errIllegal (v : Word) (s : State) : (clearSticky v s).errIllegal = clearIf (v.getLsbD 3) s.errIllegal := rfl
@[simp] theorem clearSticky_errRange (v : Word) (s : State) : (clearSticky v s).errRange = clearIf (v.getLsbD 4) s.errRange := rfl
@[simp] theorem clearSticky_errMismatch (v : Word) (s : State) : (clearSticky v s).errMismatch = clearIf (v.getLsbD 5) s.errMismatch := rfl
@[simp] theorem clearSticky_errOverrun (v : Word) (s : State) : (clearSticky v s).errOverrun = clearIf (v.getLsbD 6) s.errOverrun := rfl
@[simp] theorem clearSticky_rctab (v : Word) (s : State) : (clearSticky v s).rctab = s.rctab := rfl
@[simp] theorem clearSticky_schedule (v : Word) (s : State) : (clearSticky v s).schedule = s.schedule := rfl
@[simp] theorem clearSticky_readback (v : Word) (s : State) : (clearSticky v s).readback = s.readback := rfl

@[simp] theorem initStep_phase (s : State) : (initStep s).phase = (if (validateTable primaryTable).2 then .failed else .idle) := rfl
@[simp] theorem initStep_cmd (s : State) : (initStep s).cmd = s.cmd := rfl
@[simp] theorem initStep_res (s : State) : (initStep s).res = s.res := rfl
@[simp] theorem initStep_done (s : State) : (initStep s).done = s.done := rfl
@[simp] theorem initStep_errIllegal (s : State) : (initStep s).errIllegal = s.errIllegal := rfl
@[simp] theorem initStep_errRange (s : State) : (initStep s).errRange = s.errRange := rfl
@[simp] theorem initStep_errMismatch (s : State) : (initStep s).errMismatch = s.errMismatch := rfl
@[simp] theorem initStep_errOverrun (s : State) : (initStep s).errOverrun = s.errOverrun := rfl
@[simp] theorem initStep_rctab (s : State) : (initStep s).rctab = some primaryTable := rfl
@[simp] theorem initStep_schedule (s : State) : (initStep s).schedule = s.schedule := rfl
@[simp] theorem initStep_readback (s : State) : (initStep s).readback = s.readback := rfl

@[simp] theorem resetBlock_phase (s : State) : (resetBlock s).phase = .init := rfl
@[simp] theorem resetBlock_cmd (s : State) : (resetBlock s).cmd = 0x00000000#32 := rfl
@[simp] theorem resetBlock_res (s : State) : (resetBlock s).res = 0x00#8 := rfl
@[simp] theorem resetBlock_done (s : State) : (resetBlock s).done = false := rfl
@[simp] theorem resetBlock_errIllegal (s : State) : (resetBlock s).errIllegal = false := rfl
@[simp] theorem resetBlock_errRange (s : State) : (resetBlock s).errRange = false := rfl
@[simp] theorem resetBlock_errMismatch (s : State) : (resetBlock s).errMismatch = false := rfl
@[simp] theorem resetBlock_errOverrun (s : State) : (resetBlock s).errOverrun = false := rfl
@[simp] theorem resetBlock_rctab (s : State) : (resetBlock s).rctab = none := rfl
@[simp] theorem resetBlock_schedule (s : State) : (resetBlock s).schedule = s.schedule := rfl
@[simp] theorem resetBlock_readback (s : State) : (resetBlock s).readback = s.readback := rfl

@[simp] theorem latchForCompletion_phase (w : Word) (s : State) : (latchForCompletion w s).phase = .busy := rfl
@[simp] theorem latchForCompletion_cmd (w : Word) (s : State) : (latchForCompletion w s).cmd = w := rfl
@[simp] theorem latchForCompletion_res (w : Word) (s : State) : (latchForCompletion w s).res = s.res := rfl
@[simp] theorem latchForCompletion_done (w : Word) (s : State) : (latchForCompletion w s).done = s.done := rfl
@[simp] theorem latchForCompletion_errIllegal (w : Word) (s : State) : (latchForCompletion w s).errIllegal = s.errIllegal := rfl
@[simp] theorem latchForCompletion_errRange (w : Word) (s : State) : (latchForCompletion w s).errRange = s.errRange := rfl
@[simp] theorem latchForCompletion_errMismatch (w : Word) (s : State) : (latchForCompletion w s).errMismatch = s.errMismatch := rfl
@[simp] theorem latchForCompletion_errOverrun (w : Word) (s : State) : (latchForCompletion w s).errOverrun = s.errOverrun := rfl
@[simp] theorem latchForCompletion_rctab (w : Word) (s : State) : (latchForCompletion w s).rctab = some (s.rctab.getD primaryTable) := rfl
@[simp] theorem latchForCompletion_schedule (w : Word) (s : State) : (latchForCompletion w s).schedule = .core :: s.schedule := rfl
@[simp] theorem latchForCompletion_readback (w : Word) (s : State) : (latchForCompletion w s).readback = s.readback := rfl

end Sys2Proof.Machine
end

