-- ==== Sys2Proof/Laws/Table.lean ====
section
/-!
SUPPORT. The tables and the checks over them: the primary table's contents, and what the check loop shared by
VALIDATE, XCHECK and the self-test answers.
-/

namespace Sys2Proof.Machine

theorem primaryTable_eq_refTable : primaryTable = refTable := by decide +kernel

theorem validateTable_primary : validateTable primaryTable = (29#8, false) := by decide +kernel

theorem xcheckTable_primary : xcheckTable primaryTable = (29#8, false) := by decide +kernel

/-- The check loop answers 29 with no mismatch when every index left agrees. -/
theorem checkFrom_agrees (agrees : Nat → Bool) (n i : Nat)
    (h : ∀ j, i ≤ j → j < i + n → agrees j = true) : checkFrom agrees n i = (29#8, false) := by
  induction n generalizing i with
  | zero => rfl
  | succ n ih =>
    rw [checkFrom, if_pos (h i (by omega) (by omega))]
    exact ih (i + 1) fun j hj hj' => h j (by omega) (by omega)

/-- The check loop answers the first index that does not agree, with a mismatch. -/
theorem checkFrom_first (agrees : Nat → Bool) (n i k : Nat) (hi : i ≤ k) (hk : k < i + n)
    (h : ∀ j, i ≤ j → j < k → agrees j = true) (hne : agrees k = false) :
    checkFrom agrees n i = (BitVec.ofNat 8 k, true) := by
  induction n generalizing i with
  | zero => omega
  | succ n ih =>
    rw [checkFrom]
    by_cases hik : i = k
    · subst hik
      simp [hne]
    · rw [if_pos (h i (by omega) (by omega))]
      exact ih (i + 1) (by omega) (by omega) fun j hj hj' => h j (by omega) hj'

/-- An index inside the table is read. -/
theorem readTable_ok (t : RcTable) (i : Byte) (h : i.toNat ≤ 28) :
    ∃ v, t[i.toNat]? = some v ∧ readTable t i = .ok v := by
  refine ⟨t[i.toNat]'(by omega), ?_, ?_⟩ <;>
    simp [readTable, Vector.getElem?_eq_getElem (show i.toNat < 29 by omega)]

/-- An index past the table stops. -/
theorem readTable_past (t : RcTable) (i : Byte) (h : 28 < i.toNat) :
    readTable t i = .error (.indexPastTable i) := by
  simp [readTable, Vector.getElem?_eq_none (xs := t) (show 29 ≤ i.toNat by omega)]

end Sys2Proof.Machine
end

