-- ==== Sys2Proof/Laws/Ops.lean ====
section
/-!
SUPPORT. For each shared operation, once, everything it can do: if it answers a next state, which one.
-/

namespace Sys2Proof.Machine

theorem clearIf_eq (w flag : Bool) : clearIf w flag = (flag && !w) := by
  cases w <;> cases flag <;> rfl

theorem completeRead_next {v : Except Fault Byte} {s t : State} :
    completeRead v s = .next t ↔ ∃ r, v = .ok r ∧ t = complete r false s := by
  cases v <;> simp [completeRead, eq_comm]

theorem completeCheck_next {check : RcTable → Byte × Bool} {s t : State} :
    completeCheck check s = .next t ↔
      ∃ tab, s.rctab = some tab ∧ t = complete (check tab).1 (check tab).2 s := by
  cases h : s.rctab <;> simp [completeCheck, readRctab, h, eq_comm]

/-- A command completes with a result, and with a mismatch only if it is one of the two checks. -/
theorem exec_next {i : Instr} {s t : State} (h : exec i s = .next t) :
    ∃ r m, t = complete r m s ∧ (m = true → i = .validate ∨ i = .xcheck) := by
  cases i with
  | gfmul a b => cases h; exact ⟨_, false, rfl, by simp⟩
  | rcon i =>
    obtain ⟨r, -, rfl⟩ := completeRead_next.1 h
    exact ⟨r, false, rfl, by simp⟩
  | rconalt r => cases h; exact ⟨_, false, rfl, by simp⟩
  | refrd i =>
    obtain ⟨r, -, rfl⟩ := completeRead_next.1 h
    exact ⟨r, false, rfl, by simp⟩
  | validate =>
    obtain ⟨tab, -, rfl⟩ := completeCheck_next.1 h
    exact ⟨_, _, rfl, by simp⟩
  | xcheck =>
    obtain ⟨tab, -, rfl⟩ := completeCheck_next.1 h
    exact ⟨_, _, rfl, by simp⟩

theorem acceptCmd_illegal {v : Word} (s : State) (h : decode v = .illegal) :
    acceptCmd v s = { s with cmd := v, done := false, errIllegal := true } := by
  simp [acceptCmd, h]

theorem acceptCmd_outOfRange {v : Word} (s : State) (h : decode v = .outOfRange) :
    acceptCmd v s = { s with cmd := v, done := false, errRange := true } := by
  simp [acceptCmd, h]

theorem acceptCmd_cmd {v : Word} {i : Instr} (s : State) (h : decode v = .cmd i) :
    acceptCmd v s = { s with cmd := v, done := false, phase := .busy } := by
  simp [acceptCmd, h]

theorem writeCmd_idle (v : Word) {s : State} (h : s.phase = .idle) :
    writeCmd v s = acceptCmd v s := by
  simp [writeCmd, h]

theorem writeCmd_not_idle (v : Word) {s : State} (h : s.phase ≠ .idle) :
    writeCmd v s = dropCmd s := by
  cases hp : s.phase <;> simp_all [writeCmd]

theorem initStep_eq (s : State) :
    initStep s = { s with rctab := some primaryTable, phase := .idle } := by
  simp [initStep, validateTable_primary]

/-- A host read that answers changes nothing but what the host has read. -/
theorem hostRead_next {base addr n : Nat} {s t : State} (h : hostRead base addr n s = .next t) :
    t = { s with readback := some (readReg (addr - base) s) } := by
  unfold hostRead at h
  split at h
  · split at h
    · simpa using h.symm
    · cases h
  · cases h

/-- A host write that answers is a write to CMD or a write to STATUS. -/
theorem hostWrite_next {base addr n : Nat} {v : Word} {s t : State}
    (h : hostWrite base addr n v s = .next t) :
    (n = 4 ∧ addr = base + offCmd ∧ t = writeCmd v s) ∨
    (n = 4 ∧ addr = base + offStatus ∧ t = clearSticky v s) := by
  unfold hostWrite at h
  split at h
  case isFalse => cases h
  case isTrue hw =>
    split at h
    case isFalse => cases h
    case isTrue ha =>
      have ht : writeReg (addr - base) v s = t := by simpa using h
      simp [inWindow] at hw
      simp [admitted, offCmd, offResult, offStatus] at ha
      obtain ⟨⟨⟨rfl, -⟩, hoff⟩, hne⟩ := ha
      rcases hoff with (h0 | h4) | h8
      · left
        refine ⟨rfl, ?_, ?_⟩
        · simp [offCmd]; omega
        · rw [← ht]; simp [writeReg, h0, offCmd]
      · exact absurd h4 hne
      · right
        refine ⟨rfl, ?_, ?_⟩
        · simp [offStatus]; omega
        · rw [← ht]; simp [writeReg, h8, offCmd]

/-- A word-wide write to CMD is performed. -/
theorem hostWrite_cmd {base : Nat} (v : Word) (s : State) (hb : base % 4 = 0) :
    hostWrite base (base + offCmd) 4 v s = .next (writeCmd v s) := by
  simp [hostWrite, inWindow, admitted, writeReg, offCmd, offResult, offStatus, hb]

/-- A word-wide write to STATUS is performed. -/
theorem hostWrite_status {base : Nat} (v : Word) (s : State) (hb : base % 4 = 0) :
    hostWrite base (base + offStatus) 4 v s = .next (clearSticky v s) := by
  simp [hostWrite, inWindow, admitted, writeReg, offCmd, offResult, offStatus,
    show (base + 8) % 4 = 0 by omega]

/-- A word-wide read of one of the three registers is performed. -/
theorem hostRead_reg {base off : Nat} (s : State) (hb : base % 4 = 0)
    (ho : off = offCmd ∨ off = offResult ∨ off = offStatus) :
    hostRead base (base + off) 4 s = .next { s with readback := some (readReg off s) } := by
  rcases ho with rfl | rfl | rfl <;>
    simp [hostRead, inWindow, admitted, offCmd, offResult, offStatus, hb,
      show (base + 4) % 4 = 0 by omega, show (base + 8) % 4 = 0 by omega]

/-- The core's turn: the init step, the completion of the latched command, or nothing. -/
theorem coreTurn_next {s t : State} (h : coreTurn s = .next t) :
    (s.phase = .init ∧ t = initStep s) ∨
    (s.phase = .busy ∧ ∃ i, decode s.cmd = .cmd i ∧ exec i s = .next t) ∨
    ((s.phase = .idle ∨ s.phase = .failed) ∧ t = s) := by
  unfold coreTurn at h
  split at h
  case h_1 hp => exact .inl ⟨hp, by simpa using h.symm⟩
  case h_2 hp =>
    right; left
    refine ⟨hp, ?_⟩
    split at h
    case h_1 i hd => exact ⟨i, hd, h⟩
    all_goals cases h
  case h_3 hp => exact .inr (.inr ⟨.inl hp, by simpa using h.symm⟩)
  case h_4 hp => exact .inr (.inr ⟨.inr hp, by simpa using h.symm⟩)

theorem coreTurn_busy {s : State} {i : Instr} (hp : s.phase = .busy) (hd : decode s.cmd = .cmd i) :
    coreTurn s = exec i s := by
  simp [coreTurn, hp, hd]

end Sys2Proof.Machine
end

