-- ==== Sys2Proof/Laws/PerInstr.lean ====
section
/-!
SUPPORT. A statement about every command as data: its word matches its own row of the opcode table (R62).
-/

/-- The encoded word of a command shows the row's match bits under the row's mask. -/
def Sys2Proof.Laws.Encoding.Statement (i : Sys2Proof.Instr) : Prop :=
  Sys2Proof.encode i &&& Sys2Proof.tableMask i = Sys2Proof.tableMatch i

namespace Sys2Proof.Laws.Encoding

/-- Masking a word of four fields masks each field. -/
theorem append_and (op op' : BitVec 4) (rsv rsv' : BitVec 12) (a a' b b' : Byte) :
    ((op ++ rsv ++ a ++ b : Word) &&& (op' ++ rsv' ++ a' ++ b' : Word)) =
      ((op &&& op') ++ (rsv &&& rsv') ++ (a &&& a') ++ (b &&& b') : Word) := by
  have h : ((op ++ rsv ++ a ++ b : BitVec (4 + 12 + 8 + 8)) &&& (op' ++ rsv' ++ a' ++ b')) =
      ((op &&& op') ++ (rsv &&& rsv') ++ (a &&& a') ++ (b &&& b')) := by
    simp only [BitVec.and_append]
  exact h

/-- Masking off both operand fields of a word leaves the opcode. -/
theorem packWord_and_high (op : BitVec 4) (a b : Byte) :
    packWord op a b &&& 0xFFFF0000#32 = packWord op 0#8 0#8 := by
  refine (append_and op 0xF#4 0#12 0xFFF#12 a 0#8 b 0#8).trans ?_
  rw [BitVec.and_zero, BitVec.and_zero, BitVec.zero_and, show (0xF#4) = BitVec.allOnes 4 by decide,
    BitVec.and_allOnes]
  rfl

/-- Masking off the index field of a word with A = 0 leaves the opcode. -/
theorem packWord_and_index (op : BitVec 4) (b : Byte) :
    packWord op 0#8 b &&& 0xFFFFFF00#32 = packWord op 0#8 0#8 := by
  refine (append_and op 0xF#4 0#12 0xFFF#12 0#8 0xFF#8 b 0#8).trans ?_
  rw [BitVec.and_zero, BitVec.zero_and, BitVec.zero_and, show (0xF#4) = BitVec.allOnes 4 by decide,
    BitVec.and_allOnes]
  rfl

theorem gfmul (a b : Byte) : Statement (.gfmul a b) := by
  simp only [Statement, encode, tableMask, tableMatch, packWord_and_high]
  decide

theorem rcon (i : Byte) : Statement (.rcon i) := by
  simp only [Statement, encode, tableMask, tableMatch, packWord_and_index]
  decide

theorem rconalt (r : Byte) : Statement (.rconalt r) := by
  simp only [Statement, encode, tableMask, tableMatch, packWord_and_index]
  decide

theorem refrd (i : Byte) : Statement (.refrd i) := by
  simp only [Statement, encode, tableMask, tableMatch, packWord_and_index]
  decide

theorem validate : Statement .validate := by
  simp only [Statement]
  decide

theorem xcheck : Statement .xcheck := by
  simp only [Statement]
  decide

end Sys2Proof.Laws.Encoding
end

