-- ==== Sys2Proof/Laws/Step.lean ====
section
/-!
SUPPORT. One inversion lemma for a step: which agent moved, and to which state.
-/

namespace Sys2Proof.Machine

/-- BASE is word aligned, whatever its open parameters are. -/
theorem base_mod_four : Config.base % 4 = 0 := by
  unfold Config.base
  rcases Nat.lt_or_ge Config.addrBits 2 with h | h
  · have h' : Config.addrBits = 0 ∨ Config.addrBits = 1 := by omega
    rcases h' with h' | h' <;> rw [h'] <;> omega
  · have hd : 4 ∣ 2 ^ Config.addrBits := pow_dvd_pow 2 h
    exact Nat.dvd_iff_mod_eq_zero.mp ((Nat.dvd_mod_iff hd).mpr ⟨4 * Config.windowSlot, by ring⟩)

theorem step_cons {s : State} {e : Event} {rest : List Event} (h : s.schedule = e :: rest) :
    step s = takeEvent Config.base e { s with schedule := rest } := by
  simp [step, stepAt, h]

theorem step_nil {s : State} (h : s.schedule = []) : step s = coreTurn s := by
  simp [step, stepAt, h]

/-- The step whose event is a word-wide write to CMD. -/
theorem step_cmdWrite {s : State} {v : Word} {rest : List Event}
    (h : s.schedule = .write (Config.base + offCmd) 4 v :: rest) :
    step s = .next (writeCmd v { s with schedule := rest }) :=
  (step_cons h).trans (hostWrite_cmd v _ base_mod_four)

/-- The step whose event is a word-wide write to STATUS. -/
theorem step_statusWrite {s : State} {v : Word} {rest : List Event}
    (h : s.schedule = .write (Config.base + offStatus) 4 v :: rest) :
    step s = .next (clearSticky v { s with schedule := rest }) :=
  (step_cons h).trans (hostWrite_status v _ base_mod_four)

/-- Everything a step can do. The state the mover acts on is s without the event it spends. -/
theorem step_next {s t : State} (h : step s = .next t) :
    (coreMoves s = true ∧ coreTurn { s with schedule := s.schedule.tail } = .next t) ∨
    (resetMoves s = true ∧ t = resetBlock { s with schedule := s.schedule.tail }) ∨
    (∃ v, t = { s with schedule := s.schedule.tail, readback := some v }) ∨
    (∃ v, cmdWriteNext Config.base s = some v ∧ t = writeCmd v { s with schedule := s.schedule.tail }) ∨
    (∃ v, statusWriteNext Config.base s = some v ∧
      t = clearSticky v { s with schedule := s.schedule.tail }) := by
  cases hs : s.schedule with
  | nil =>
    refine .inl ⟨by simp [coreMoves, hs], ?_⟩
    rw [step_nil hs] at h
    have hsame : ({ s with schedule := ([] : List Event).tail } : State) = s := by
      cases s; simp_all
    rwa [hsame]
  | cons e rest =>
    rw [step_cons hs] at h
    simp only [List.tail_cons]
    cases e with
    | core => exact .inl ⟨by simp [coreMoves, hs], h⟩
    | reset =>
      refine .inr (.inl ⟨by simp [resetMoves, hs], ?_⟩)
      simpa [takeEvent] using h.symm
    | read addr n => exact .inr (.inr (.inl ⟨_, hostRead_next h⟩))
    | write addr n v =>
      rcases hostWrite_next h with ⟨rfl, rfl, rfl⟩ | ⟨rfl, rfl, rfl⟩
      · exact .inr (.inr (.inr (.inl ⟨v, by simp [cmdWriteNext, hs], rfl⟩)))
      · exact .inr (.inr (.inr (.inr ⟨v, by simp [statusWriteNext, hs], rfl⟩)))

end Sys2Proof.Machine
end

