-- ==== Sys2Proof/Laws/Safety.lean ====
section
/-!
SUPPORT. What the run invariant says of a state, which words are well formed, and how a run of several steps
unfolds.
-/

namespace Sys2Proof.Machine

theorem wellFormed_rcon (i : Byte) : wellFormed (.rcon i) = true ↔ i.toNat ≤ 28 := by
  simp [wellFormed, Config.rangeMax]

theorem wellFormed_refrd (i : Byte) : wellFormed (.refrd i) = true ↔ i.toNat ≤ 28 := by
  simp [wellFormed, Config.rangeMax]

/-- The invariant reads the phase, RCTAB and CMD, and nothing else. -/
theorem runInv_congr {s t : State} (hp : t.phase = s.phase) (hr : t.rctab = s.rctab)
    (hc : t.cmd = s.cmd) : RunInv t ↔ RunInv s := by
  simp [RunInv, tableOk, latchOk, hp, hr, hc]

theorem rctab_of_runInv {s : State} (h : RunInv s) (hp : s.phase ≠ .init) :
    s.rctab = some primaryTable := by
  simpa [tableOk, hp] using h.1

theorem command_of_runInv {s : State} (h : RunInv s) (hp : s.phase = .busy) :
    ∃ i, decode s.cmd = .cmd i := by
  simpa [latchOk, hp] using h.2

/-- A run takes its first step, and goes on from there. -/
theorem run_succ {s t : State} (n : Nat) (h : step s = .next t) :
    core.run (n + 1) s = core.run n t := by
  have h' : core.step s = .next t := h
  show Host.Core.run core (n + 1) s = Host.Core.run core n t
  simp only [Host.Core.run, h']

end Sys2Proof.Machine
end

