-- ==== Sys2Proof/Tests/Slice0.lean ====
section
/-!
SUPPORT. The model's own tests, with their sources, and a witness for each statement that has hypotheses.
-/

namespace Sys2Proof.Machine.Tests

/-! ## Small states -/

/-- The ready state R0 of 95_test_vectors.md section 3: reset and the init step. -/
def ready : State := { State.reset with phase := .idle, rctab := some primaryTable }

/-- The ready state with a word accepted and not completed. -/
def busyWith (w : Word) : State := { ready with phase := .busy, cmd := w }

/-- The primary table with one entry overwritten. -/
def spoiled (k : Fin 29) (v : Byte) : RcTable := primaryTable.set k v

/-- Whether an outcome is a next state with a property. -/
def nextIs (o : Host.Outcome State Fault Refusal) (p : State → Bool) : Bool :=
  match o with
  | .next t => p t
  | _ => false

/-- Whether an outcome is a given fault. -/
def faultIs (o : Host.Outcome State Fault Refusal) (f : Fault) : Bool :=
  match o with
  | .fault g => g == f
  | _ => false

/-! ## Well-formedness: the check refuses an ill-formed term (R64) -/

theorem test_wf_rcon_28 : wellFormed (.rcon 28#8) = true := by decide
theorem test_wf_rcon_29_refused : wellFormed (.rcon 29#8) = false := by decide
theorem test_wf_refrd_28 : wellFormed (.refrd 28#8) = true := by decide
theorem test_wf_refrd_255_refused : wellFormed (.refrd 255#8) = false := by decide

/-! ## Decoding: words written out bit by bit from R62 -/

theorem test_decode_gfmul :
    decode 0b0001_000000000000_01010111_10000011#32 = .cmd (.gfmul 0x57#8 0x83#8) := by decide
theorem test_decode_rcon :
    decode 0b0010_000000000000_00000000_00011100#32 = .cmd (.rcon 28#8) := by decide
theorem test_decode_rconalt :
    decode 0b0011_000000000000_00000000_11111111#32 = .cmd (.rconalt 255#8) := by decide
theorem test_decode_refrd :
    decode 0b0100_000000000000_00000000_00001100#32 = .cmd (.refrd 12#8) := by decide
theorem test_decode_validate :
    decode 0b0101_000000000000_00000000_00000000#32 = .cmd .validate := by decide
theorem test_decode_xcheck :
    decode 0b0110_000000000000_00000000_00000000#32 = .cmd .xcheck := by decide
/-- V6: every illegal and out-of-range row. -/
theorem test_decode_v6 :
    decode 0x00000000#32 = .illegal ∧ decode 0x70000000#32 = .illegal ∧
    decode 0x80000000#32 = .illegal ∧ decode 0xF0000000#32 = .illegal ∧
    decode 0x10010000#32 = .illegal ∧ decode 0x6FFFFFFF#32 = .illegal ∧
    decode 0x20FF00FF#32 = .illegal ∧ decode 0x2000001D#32 = .outOfRange := by decide
/-- V3, V4, V5. -/
theorem test_decode_v3_v5 :
    decode 0x400000FF#32 = .outOfRange ∧ decode 0x20000100#32 = .illegal ∧
    decode 0x3000FF00#32 = .illegal ∧ decode 0x50000001#32 = .illegal ∧
    decode 0x60000100#32 = .illegal := by decide
/-- R47: the word 0x2000001C lies on the bus as 1C 00 00 20. -/
theorem test_decode_lanes :
    decodeBytes [0x1C#8, 0x00#8, 0x00#8, 0x20#8, 0xAA#8] = some (.cmd (.rcon 28#8), [0xAA#8]) := by decide
theorem test_decode_table_word : decodeTableWord 32 0x10005713 = some (.gfmul 0x57#8 0x13#8) := by decide
theorem test_encode_gfmul : encode (.gfmul 0x57#8 0x83#8) = 0x10005783#32 := by decide
theorem test_encode_refrd : encode (.refrd 12#8) = 0x4000000C#32 := by decide

/-! ## Arithmetic: V1, V2, V4 -/

theorem test_gfmul_57_83 : gfmul 0x57#8 0x83#8 = 0xC1#8 := by decide
theorem test_gfmul_v1 :
    gfmul 0x57#8 0x13#8 = 0xFE#8 ∧ gfmul 0x80#8 0x80#8 = 0x9A#8 ∧ gfmul 0xFF#8 0xFF#8 = 0x13#8 ∧
    gfmul 0x53#8 0xCA#8 = 0x01#8 ∧ gfmul 0x8D#8 0x8D#8 = 0xCB#8 ∧ gfmul 0x00#8 0xFF#8 = 0x00#8 := by decide
theorem test_xtime_v2 : gfmul 0x02#8 0x80#8 = 0x1B#8 ∧ gfmul 0x02#8 0xFF#8 = 0xE5#8 := by decide
theorem test_compute_rc_v4 :
    computeRc 0#8 = 0x8D#8 ∧ computeRc 29#8 = 0xC5#8 ∧ computeRc 30#8 = 0x91#8 ∧
    computeRc 49#8 = 0xE8#8 := by decide +kernel
theorem test_compute_rc_255 : computeRc 255#8 = 0x8D#8 := by decide +kernel

/-! ## One command, one step: the result after the core's turn -/

/-- P1: gfmul 0x57, 0x83. -/
theorem test_gfmul_step :
    nextIs (coreTurn (busyWith 0x10005783#32))
      (fun t => t.res == 0xC1#8 && statusWord t == 0x00000005#32) = true := by decide
/-- S4: rcon 9. -/
theorem test_rcon_step : nextIs (coreTurn (busyWith 0x20000009#32)) (fun t => t.res == 0x36#8) = true := by
  decide
/-- R91: rcon 28 is the last entry. -/
theorem test_rcon_last : nextIs (coreTurn (busyWith 0x2000001C#32)) (fun t => t.res == 0xC5#8) = true := by
  decide +kernel
/-- R94: rconalt 10. -/
theorem test_rconalt_step :
    nextIs (coreTurn (busyWith 0x3000000A#32)) (fun t => t.res == 0x36#8) = true := by decide
/-- R92: refrd 12. -/
theorem test_refrd_step : nextIs (coreTurn (busyWith 0x4000000C#32)) (fun t => t.res == 0xAB#8) = true := by
  decide
/-- V5: validate passes. -/
theorem test_validate_step :
    nextIs (coreTurn (busyWith 0x50000000#32)) (fun t => t.res == 0x1D#8 && !t.errMismatch) = true := by
  decide
/-- R110: a table spoiled at index 3 fails there. -/
theorem test_validate_mismatch :
    nextIs (exec .validate { busyWith 0x50000000#32 with rctab := some (spoiled 3 0xFF#8) })
      (fun t => t.res == 3#8 && t.errMismatch) = true := by decide
/-- V5: xcheck passes. -/
theorem test_xcheck_step :
    nextIs (coreTurn (busyWith 0x60000000#32)) (fun t => t.res == 0x1D#8 && !t.errMismatch) = true := by
  decide
/-- R111: a table spoiled at index 0 fails there, although RES then reads 0x00. -/
theorem test_xcheck_mismatch :
    nextIs (exec .xcheck { busyWith 0x60000000#32 with rctab := some (spoiled 0 0x8D#8) })
      (fun t => t.res == 0#8 && t.errMismatch) = true := by decide
/-- The host's question: a placed word runs as the first step after reset, and the step is exec's. -/
theorem test_fetch_word_runs :
    nextIs (step (State.reset.withFetchWord 32 0x60000000))
      (fun t => t.res == 0x1D#8 && t.done && t.phase == .idle) = true := by decide

/-! ## The lifecycle and the window: P3, P4, V7 with BASE = 0x40000000 -/

/-- P4: the init step from reset. -/
theorem test_init_step : nextIs (step State.reset) (fun t => statusWord t == 0x00000001#32) = true := by
  decide
/-- P1: after the CMD write, STATUS reads BUSY and RESULT is stale. -/
theorem test_accept :
    nextIs (hostWrite 0x40000000 0x40000000 4 0x10005783#32 ready)
      (fun t => statusWord t == 0x00000003#32 && t.res == 0#8) = true := by decide
/-- P4: the all-zero word is illegal. -/
theorem test_accept_illegal :
    nextIs (hostWrite 0x40000000 0x40000000 4 0x00000000#32 { ready with done := true })
      (fun t => statusWord t == 0x00000009#32) = true := by decide
/-- P2: RCON 29 is out of range. -/
theorem test_accept_range :
    nextIs (hostWrite 0x40000000 0x40000000 4 0x2000001D#32 { ready with done := true })
      (fun t => statusWord t == 0x00000011#32 && t.cmd == 0x2000001D#32) = true := by decide
/-- P3 (b): a second write while BUSY is dropped. -/
theorem test_overrun :
    nextIs (hostWrite 0x40000000 0x40000000 4 0x40000009#32 (busyWith 0x10005713#32))
      (fun t => t.cmd == 0x10005713#32 && t.errOverrun && t.phase == .busy) = true := by decide
/-- V7: STATUS writes. -/
theorem test_status_write :
    nextIs (hostWrite 0x40000000 0x40000008 4 0x00000004#32 { ready with done := true })
      (fun t => statusWord t == 0x00000001#32) = true ∧
    nextIs (hostWrite 0x40000000 0x40000008 4 0xFFFFFF83#32 { ready with done := true })
      (fun t => statusWord t == 0x00000005#32) = true := by decide
/-- V7: the accesses that fault. -/
theorem test_access_faults :
    faultIs (hostWrite 0x40000000 0x40000004 4 0x12#32 ready) (.accessFault 0x40000004 4 .write) = true ∧
    faultIs (hostRead 0x40000000 0x4000000C 4 ready) (.accessFault 0x4000000C 4 .read) = true ∧
    faultIs (hostRead 0x40000000 0x40000008 1 ready) (.accessFault 0x40000008 1 .read) = true ∧
    faultIs (hostRead 0x40000000 0x40000002 4 ready) (.accessFault 0x40000002 4 .read) = true := by decide
/-- V7: CMD and RESULT read after a completed xcheck. -/
theorem test_reads :
    nextIs (hostRead 0x40000000 0x40000000 4 { ready with cmd := 0x60000000#32, res := 0x1D#8 })
      (fun t => t.readback == some 0x60000000#32) = true ∧
    nextIs (hostRead 0x40000000 0x40000004 4 { ready with cmd := 0x60000000#32, res := 0x1D#8 })
      (fun t => t.readback == some 0x0000001D#32) = true := by decide
/-- V7: STATUS in FAILED. -/
theorem test_status_failed : statusWord { ready with phase := .failed } = 0x00000080#32 := by decide
/-- P4: a reset while BUSY. -/
theorem test_reset_event :
    nextIs (takeEvent 0x40000000 .reset (busyWith 0x10005783#32))
      (fun t => statusWord t == 0#32 && t.cmd == 0#32 && t.rctab == none) = true := by decide

/-! ## The assembler and the host lines (R74 to R76, P1) -/

theorem test_assemble_text :
    assembleText "gfmul 0x57, 0x83" = some 0x10005783#32 ∧ assembleText "rconalt 10" = some 0x3000000A#32 ∧
    assembleText "xcheck" = some 0x60000000#32 ∧ assembleText ".word 0x2000001D" = some 0x2000001D#32 := by
  decide
theorem test_assemble_refuses :
    assembleText "rcon 29" = none ∧ assembleText "gfmul 256, 0" = none ∧ assembleText "gfmul 1" = none ∧
    assembleText "nop" = none := by decide
theorem test_assemble_xtime : assembleText "xtime 0xC1" = some 0x100002C1#32 := by decide
theorem test_exec_line :
    lineEvents 0x100 1 (.exec 0x10005783#32) =
      [.write 0x100 4 0x10005783#32, .read 0x108 4, .read 0x104 4] := by decide
theorem test_wait_lines :
    waitEnds 0x00000003#32 = false ∧ waitEnds 0x00000005#32 = true ∧ waitreadyEnds 0x00000000#32 = false ∧
    waitreadyEnds 0x00000001#32 = true ∧ waitreadyEnds 0x00000080#32 = true := by decide

/-! ## Witnesses: for each statement with hypotheses, a state and operands that meet them all -/

theorem ready_runInv : RunInv ready := by
  simp [RunInv, tableOk, latchOk, ready]

theorem busyWith_runInv {w : Word} (h : isCommand (decode w) = true) : RunInv (busyWith w) := by
  simp [RunInv, tableOk, latchOk, ready, busyWith, h]

theorem witness_DecodeOfEncode :
    wellFormed (.rcon 28#8) = true ∧ wellFormed (.refrd 0#8) = true ∧ wellFormed .xcheck = true := by decide
theorem witness_EncodeOfDecode : decode 0x2000001C#32 = .cmd (.rcon 28#8) := by decide
theorem witness_IllegalWordsExactly :
    0x40000000 % 16 = 0 ∧ ready.phase = .idle ∧ decode 0x70000000#32 = .illegal := by decide
theorem witness_OutOfRangeWordsExactly :
    0x40000000 % 16 = 0 ∧ ready.phase = .idle ∧ decode 0x2000001D#32 = .outOfRange ∧
    decode 0x400000FF#32 = .outOfRange := by decide
theorem witness_GfmulFieldLaws : gfmul 0x00#8 0x57#8 = 0#8 ∧ (0x57#8 : Byte) ≠ 0#8 := by decide
theorem witness_NineBitsSuffice : (0xFF#9 : Wide).toNat < 0x100 := by decide
theorem witness_LoopPassesSuffice : (0x80#8 : Byte).toNat < 2 ^ 8 ∧ 8 ≤ 9 ∧ (0x00#8 : Byte).toNat < 2 ^ 0 := by
  decide
theorem witness_AlternateIndexRelation :
    1 ≤ (1#8 : Byte).toNat ∧ (1#8 : Byte).toNat ≤ 29 ∧ 1 ≤ (29#8 : Byte).toNat ∧ (29#8 : Byte).toNat ≤ 29 := by
  decide
theorem witness_RconCompletes : (28#8 : Byte).toNat ≤ 28 ∧ ready.rctab = some primaryTable :=
  ⟨by decide, rfl⟩
theorem witness_RconReadsPowerOfTwo :
    (28#8 : Byte).toNat ≤ 28 ∧ RunInv (busyWith 0x2000001C#32) ∧ (busyWith 0x2000001C#32).phase = .busy :=
  ⟨by decide, busyWith_runInv (by decide), rfl⟩
theorem witness_RefrdCompletes : (28#8 : Byte).toNat ≤ 28 := by decide
/-- The pass clause, and the fail clause at the first and the last index. -/
theorem witness_ValidateFindsFirstMismatch :
    (∀ j < 29, primaryTable[j]? = refTable[j]?) ∧
    (spoiled 0 0xFF#8)[0]? ≠ refTable[0]? ∧
    ((∀ j < 28, (spoiled 28 0xFF#8)[j]? = refTable[j]?) ∧ (spoiled 28 0xFF#8)[28]? ≠ refTable[28]?) ∧
    ({ ready with rctab := some (spoiled 28 0xFF#8) } : State).rctab = some (spoiled 28 0xFF#8) := by
  decide
theorem witness_XcheckFindsFirstMismatch :
    (∀ j < 29, primaryTable[j]? = some (computeRc (BitVec.ofNat 8 (j + 1)))) ∧
    (spoiled 0 0xFF#8)[0]? ≠ some (computeRc (BitVec.ofNat 8 1)) ∧
    ((∀ j < 28, (spoiled 28 0xFF#8)[j]? = some (computeRc (BitVec.ofNat 8 (j + 1)))) ∧
      (spoiled 28 0xFF#8)[28]? ≠ some (computeRc (BitVec.ofNat 8 29))) ∧
    ({ ready with rctab := some (spoiled 28 0xFF#8) } : State).rctab = some (spoiled 28 0xFF#8) := by
  decide
theorem witness_BothChecksPass :
    RunInv (busyWith 0x50000000#32) ∧ (busyWith 0x50000000#32).phase = .busy :=
  ⟨busyWith_runInv (by decide), rfl⟩
theorem witness_AbsentTableFaults : State.reset.rctab = none := by decide
theorem witness_UnacceptedWordsStop :
    28 < (29#8 : Byte).toNat ∧ ready.rctab.isSome = true ∧
    (busyWith 0x00000000#32).phase = .busy ∧ isCommand (decode (busyWith 0x00000000#32).cmd) = false := by
  decide
theorem witness_CompletionFrame : ∃ t, exec (.gfmul 0x57#8 0x83#8) (busyWith 0x10005783#32) = .next t :=
  ⟨_, rfl⟩
theorem witness_ResultDependsOnOperandsAlone :
    RunInv (busyWith 0x10005783#32) ∧ RunInv { busyWith 0x50000000#32 with errRange := true, res := 7#8 } ∧
    (busyWith 0x10005783#32).phase = .busy ∧
    ({ busyWith 0x50000000#32 with errRange := true, res := 7#8 } : State).phase = .busy ∧
    (∃ t, exec (.gfmul 1#8 2#8) (busyWith 0x10005783#32) = .next t) ∧
    (∃ t, exec (.gfmul 1#8 2#8) { busyWith 0x50000000#32 with errRange := true, res := 7#8 } = .next t) :=
  ⟨busyWith_runInv (by decide),
    (runInv_congr (s := busyWith 0x50000000#32) rfl rfl rfl).2 (busyWith_runInv (by decide)),
    rfl, rfl, ⟨_, rfl⟩, ⟨_, rfl⟩⟩
theorem witness_AcceptByDecode :
    0x40000000 % 16 = 0 ∧ ready.phase = .idle ∧ decode 0x00000000#32 = .illegal ∧
    decode 0x4000001D#32 = .outOfRange ∧ decode 0x50000000#32 = .cmd .validate := by decide
theorem witness_DropOutsideIdle :
    0 % 16 = 0 ∧ State.reset.phase ≠ .idle ∧ (busyWith 0x50000000#32).phase ≠ .idle ∧
    ({ ready with phase := .failed } : State).phase ≠ .idle := by decide
theorem witness_OneErrorPerCmdWrite :
    0x40000000 % 16 = 0 ∧
    (∃ t, hostWrite 0x40000000 0x40000000 4 0x2000001D#32 ready = .next t) ∧
    (∃ t, hostWrite 0x40000000 0x40000000 4 0x2000001D#32 State.reset = .next t) :=
  ⟨by decide, ⟨_, rfl⟩, ⟨_, rfl⟩⟩
theorem witness_StatusWriteClears :
    0x40000000 % 16 = 0 ∧ (∃ t, hostWrite 0x40000000 (0x40000000 + 0x8) 4 0x7C#32 ready = .next t) :=
  ⟨by decide, ⟨_, rfl⟩⟩
theorem witness_ReadsReturnRegisters :
    0x40000000 % 16 = 0 ∧ 0x8 ∈ [0x0, 0x4, 0x8] ∧
    (∃ t, hostRead 0x40000000 (0x40000000 + 0x8) 4 ready = .next t) :=
  ⟨by decide, by decide, ⟨_, rfl⟩⟩
/-- The first and the last byte of the window. -/
theorem witness_UnadmittedAccessFaults :
    0x40000000 % 16 = 0 ∧ 0x40000000 ≤ 0x40000000 ∧ 0x40000000 ≤ 0x40000000 + 15 ∧
    0x40000000 ≤ 0x4000000F ∧ 0x4000000F ≤ 0x40000000 + 15 := by decide
/-- The bytes just before and just after the window. -/
theorem witness_OutsideWindowRefused : 0x3FFFFFFF < 0x40000000 ∧ 0x40000000 + 15 < 0x40000010 := by decide
theorem witness_HostAccessKeepsCoreStepEnabled :
    0x40000000 % 16 = 0 ∧ (State.reset.phase = .init ∨ State.reset.phase = .busy) ∧
    (∃ t addr n v, hostWrite 0x40000000 addr n v State.reset = .next t) ∧
    (∃ t addr n, hostRead 0x40000000 addr n (busyWith 0x50000000#32) = .next t) :=
  ⟨by decide, by decide, ⟨_, 0x40000008, 4, 0x7C#32, rfl⟩, ⟨_, 0x40000008, 4, rfl⟩⟩
theorem witness_InitStepReachesIdle : State.reset.phase = .init := by decide
theorem witness_StepTakesOldestEvent :
    ({ ready with schedule := [.core, .reset] } : State).schedule = .core :: [.reset] ∧
    ready.schedule = [] := by decide
theorem witness_StepRunsLatchedCommand :
    coreMoves (busyWith 0x50000000#32) = true ∧
    coreMoves { busyWith 0x50000000#32 with schedule := [.core] } = true ∧
    (busyWith 0x50000000#32).phase = .busy ∧
    decodeBytes (lanes (busyWith 0x50000000#32).cmd) = some (.cmd .validate, []) ∧
    wellFormed .validate = true ∧ decodeTableWord 32 0x50000000 = some .validate := by decide
theorem witness_CoreRestsInIdleAndFailed :
    ready.phase = .idle ∧ ({ ready with phase := .failed } : State).phase = .failed := by decide
/-- Steps of every kind from a state that meets the invariant: the init step, a completion, a reset, and
a CMD and a STATUS write at the machine's BASE. -/
theorem witness_steps :
    RunInv State.reset ∧ (∃ t, step State.reset = .next t) ∧
    RunInv (busyWith 0x10005783#32) ∧ (∃ t, step (busyWith 0x10005783#32) = .next t) ∧
    (∃ t, step { ready with schedule := [.reset] } = .next t) ∧
    (∃ t, step { ready with schedule := [.write (Config.base + offCmd) 4 0#32] } = .next t) ∧
    (∃ t, step { ready with schedule := [.write (Config.base + offStatus) 4 0x7C#32] } = .next t) :=
  ⟨by decide, ⟨_, rfl⟩, busyWith_runInv (by decide), ⟨_, rfl⟩, ⟨_, rfl⟩,
    ⟨_, step_cmdWrite rfl⟩,
    ⟨_, step_statusWrite rfl⟩⟩
theorem witness_StepKeepsRunInv :
    RunInv (busyWith 0x10005783#32) ∧ ∃ t, step (busyWith 0x10005783#32) = .next t :=
  ⟨busyWith_runInv (by decide), ⟨_, rfl⟩⟩
theorem witness_NeverFailsNeverMismatches :
    RunInv State.reset ∧ State.reset.phase ≠ .failed ∧ State.reset.errMismatch = false ∧
    ∃ t, step State.reset = .next t :=
  ⟨by decide, by decide, by decide, ⟨_, rfl⟩⟩
theorem witness_PhaseMovesOnlyAsStated :
    step State.reset = .next (initStep State.reset) ∧ (initStep State.reset).phase ≠ State.reset.phase :=
  ⟨rfl, by decide⟩
/-- CMD and RES change in steps at the machine's BASE. -/
theorem witness_RegistersWrittenOnlyAsStated :
    (∃ t, step { ready with schedule := [.write (Config.base + offCmd) 4 0x50000000#32] } = .next t ∧
      t.cmd ≠ ready.cmd) ∧
    (∃ t, step (busyWith 0x10005783#32) = .next t ∧ t.res ≠ (busyWith 0x10005783#32).res) ∧
    (∃ t, step State.reset = .next t ∧ t.rctab ≠ State.reset.rctab) :=
  ⟨⟨_, step_cmdWrite rfl, by decide⟩,
    ⟨_, rfl, by decide⟩, ⟨initStep State.reset, rfl, by decide⟩⟩
/-- Each of the five sticky bits turns on in some step. -/
theorem witness_StickyBitsSetOnlyAsStated :
    (∃ t, step (busyWith 0x10005783#32) = .next t ∧ (busyWith 0x10005783#32).done = false ∧ t.done = true) ∧
    (∃ t, step { ready with schedule := [.write (Config.base + offCmd) 4 0#32] } = .next t ∧
      ready.errIllegal = false ∧ t.errIllegal = true) ∧
    (∃ t, step { ready with schedule := [.write (Config.base + offCmd) 4 0x2000001D#32] } = .next t ∧
      ready.errRange = false ∧ t.errRange = true) ∧
    (∃ t, step { busyWith 0x50000000#32 with rctab := some (spoiled 0 0xFF#8) } = .next t ∧
      ready.errMismatch = false ∧ t.errMismatch = true) ∧
    (∃ t, step { State.reset with schedule := [.write (Config.base + offCmd) 4 0#32] } = .next t ∧
      State.reset.errOverrun = false ∧ t.errOverrun = true) :=
  ⟨⟨_, rfl, by decide, by decide⟩,
    ⟨_, step_cmdWrite rfl, by decide, by decide⟩,
    ⟨_, step_cmdWrite rfl, by decide, by decide⟩,
    ⟨_, rfl, by decide, by decide⟩,
    ⟨_, step_cmdWrite rfl, by decide, by decide⟩⟩
/-- A STATUS write of 0x7C turns off all five bits; a CMD write turns off DONE. -/
theorem witness_StickyBitsClearedOnlyAsStated :
    (∃ t, step { ready with
        done := true, errIllegal := true, errRange := true, errMismatch := true, errOverrun := true,
        schedule := [.write (Config.base + offStatus) 4 0x7C#32] } = .next t ∧
      t.done = false ∧ t.errIllegal = false ∧ t.errRange = false ∧ t.errMismatch = false ∧
      t.errOverrun = false) ∧
    (∃ t, step { ready with done := true, schedule := [.write (Config.base + offCmd) 4 0#32] } = .next t ∧
      t.done = false) ∧
    resetMoves { ready with schedule := [.write (Config.base + offCmd) 4 0#32] } = false :=
  ⟨⟨_, step_statusWrite rfl, by decide, by decide, by decide,
      by decide, by decide⟩,
    ⟨_, step_cmdWrite rfl, by decide⟩, rfl⟩
/-- The machine's BASE admits a word access to each of its registers. -/
theorem admitted_at_base :
    eventAdmitted Config.base (.write (Config.base + offCmd) 4 0x50000000#32) = true ∧
    eventAdmitted Config.base (.read (Config.base + offResult) 4) = true := by
  have hb := base_mod_four
  simp [eventAdmitted, inWindow, admitted, offCmd, offResult, offStatus, hb,
    show (Config.base + 4) % 4 = 0 by omega]
theorem witness_AdmittedStepsNeverStop :
    RunInv { ready with schedule := [.write (Config.base + offCmd) 4 0x50000000#32] } ∧
    (∀ e, ({ ready with schedule := [.write (Config.base + offCmd) 4 0x50000000#32] } : State).schedule.head?
      = some e → eventAdmitted Config.base e = true) :=
  ⟨(runInv_congr (s := ready) rfl rfl rfl).2 ready_runInv, by
    rintro e h
    cases h
    exact admitted_at_base.1⟩
theorem witness_AdmittedRunsEndQuiescent :
    RunInv { ready with schedule :=
      [.write (Config.base + offCmd) 4 0x50000000#32, .core, .read (Config.base + offResult) 4] } ∧
    (∀ e ∈ [Event.write (Config.base + offCmd) 4 0x50000000#32, .core, .read (Config.base + offResult) 4],
      eventAdmitted Config.base e = true) :=
  ⟨(runInv_congr (s := ready) rfl rfl rfl).2 ready_runInv, by
    intro e h
    simp only [List.mem_cons, List.not_mem_nil, or_false] at h
    rcases h with rfl | rfl | rfl
    · exact admitted_at_base.1
    · rfl
    · exact admitted_at_base.2⟩
theorem witness_CommandLifecycle :
    0x40000000 % 16 = 0 ∧ RunInv ready ∧ ready.phase = .idle ∧ wellFormed (.refrd 28#8) = true :=
  ⟨by decide, ready_runInv, rfl, by decide⟩
theorem witness_OverrunRaceHasTwoOutcomes :
    RunInv ready ∧ ready.phase = .idle ∧ wellFormed (.gfmul 0x57#8 0x13#8) = true ∧
    wellFormed (.refrd 9#8) = true :=
  ⟨ready_runInv, rfl, by decide, by decide⟩
theorem witness_DoneClearedWhileBusyIsSetAgain :
    0x40000000 % 16 = 0 ∧ (0x04#32 : Word).getLsbD 2 = true ∧ RunInv (busyWith 0x10005783#32) ∧
    (busyWith 0x10005783#32).phase = .busy ∧ ready.phase = .idle :=
  ⟨by decide, by decide, busyWith_runInv (by decide), rfl, rfl⟩

end Sys2Proof.Machine.Tests
end

section
/-!
PROOFS. The parameters of the block (00_scope.md R6): what BASE satisfies whatever the open constants are.
-/

namespace Sys2Proof.Config

/-- Reducing a slot's address modulo 2^ADDR_BITS keeps it a multiple of 16. With at least 4 address bits
the modulus is itself a multiple of 16; with fewer it divides 16, so the only slot is the one at 0. -/
theorem sixteen_dvd_base : 16 ∣ base := by
  unfold base
  rcases le_total 4 addrBits with hwide | hnarrow
  · have hmod : 16 ∣ 2 ^ addrBits := pow_dvd_pow 2 hwide
    exact (Nat.dvd_mod_iff hmod).mpr (Nat.dvd_mul_right 16 windowSlot)
  · have hmod : 2 ^ addrBits ∣ 16 := pow_dvd_pow 2 hnarrow
    have hzero : 16 * windowSlot % 2 ^ addrBits = 0 :=
      Nat.mod_eq_zero_of_dvd (hmod.mul_right windowSlot)
    simp [hzero]

theorem base_lt_two_pow_addrBits : base < 2 ^ addrBits :=
  Nat.mod_lt _ (Nat.two_pow_pos addrBits)

end Sys2Proof.Config

namespace Sys2Proof.Proofs

/-- Settles O43: BASE is a slot's address reduced modulo 2^ADDR_BITS, which bounds it and keeps it aligned. -/
theorem baseIsAdmissible : Obligations.BaseIsAdmissible :=
  ⟨Nat.mod_eq_zero_of_dvd Config.sixteen_dvd_base, Config.base_lt_two_pow_addrBits⟩

end Sys2Proof.Proofs
end

section
/-!
PROOFS. Which agent a step moves and to which state, as one case per rule (10_state.md R27, 30_encoding.md R70
to R72, 70_reset_and_hazards.md R140, R142); the statements about the whole state are read off these cases.
-/

namespace Sys2Proof.Machine

/-- The state whose oldest event is spent: the one the mover of a step acts on. -/
abbrev spend (s : State) : State := { s with schedule := s.schedule.tail }

/-- Everything a step from s can do, with the guard of each case and its exact next state. -/
inductive StepCase (s : State) : State → Prop where
  | reset (hr : resetMoves s = true) : StepCase s (resetBlock (spend s))
  | selfTest (hc : coreMoves s = true) (hp : s.phase = .init) : StepCase s (initStep (spend s))
  | completion {i : Instr} {r : Byte} {m : Bool} (hc : coreMoves s = true) (hp : s.phase = .busy)
      (hd : decode s.cmd = .cmd i) (hm : m = true → i = .validate ∨ i = .xcheck) :
      StepCase s (complete r m (spend s))
  | rest (hc : coreMoves s = true) (hp : s.phase = .idle ∨ s.phase = .failed) : StepCase s (spend s)
  | read (v : Word) : StepCase s { spend s with readback := some v }
  | illegal {v : Word} (hw : cmdWriteNext Config.base s = some v) (hp : s.phase = .idle)
      (hd : decode v = .illegal) :
      StepCase s { spend s with cmd := v, done := false, errIllegal := true }
  | outOfRange {v : Word} (hw : cmdWriteNext Config.base s = some v) (hp : s.phase = .idle)
      (hd : decode v = .outOfRange) :
      StepCase s { spend s with cmd := v, done := false, errRange := true }
  | accept {v : Word} {i : Instr} (hw : cmdWriteNext Config.base s = some v) (hp : s.phase = .idle)
      (hd : decode v = .cmd i) :
      StepCase s { spend s with cmd := v, done := false, phase := .busy }
  | drop {v : Word} (hw : cmdWriteNext Config.base s = some v) (hp : s.phase ≠ .idle) :
      StepCase s (dropCmd (spend s))
  | clear {v : Word} (hw : statusWriteNext Config.base s = some v) :
      StepCase s (clearSticky v (spend s))

theorem stepCase_of_coreTurn {s t : State} (hc : coreMoves s = true)
    (h : coreTurn (spend s) = .next t) : StepCase s t := by
  rcases coreTurn_next h with ⟨hp, rfl⟩ | ⟨hp, i, hd, hx⟩ | ⟨hp, rfl⟩
  · exact .selfTest hc hp
  · obtain ⟨r, m, rfl, hm⟩ := exec_next hx
    exact .completion hc hp hd hm
  · exact .rest hc hp

theorem stepCase_of_cmdWrite {s : State} {v : Word} (hw : cmdWriteNext Config.base s = some v) :
    StepCase s (writeCmd v (spend s)) := by
  by_cases hp : s.phase = .idle
  · rw [writeCmd_idle v (s := spend s) hp]
    cases hd : decode v with
    | illegal => rw [acceptCmd_illegal _ hd]; exact .illegal hw hp hd
    | outOfRange => rw [acceptCmd_outOfRange _ hd]; exact .outOfRange hw hp hd
    | cmd i => rw [acceptCmd_cmd _ hd]; exact .accept hw hp hd
  · rw [writeCmd_not_idle v (s := spend s) hp]
    exact .drop hw hp

/-- A step that answers a next state is one of the cases. -/
theorem stepCase_of_step {s t : State} (h : step s = .next t) : StepCase s t := by
  rcases step_next h with ⟨hc, hx⟩ | ⟨hr, rfl⟩ | ⟨v, rfl⟩ | ⟨v, hw, rfl⟩ | ⟨v, hw, rfl⟩
  · exact stepCase_of_coreTurn hc hx
  · exact .reset hr
  · exact .read v
  · exact stepCase_of_cmdWrite hw
  · exact .clear hw

/-- Outside INIT the invariant holds when RCTAB is the primary table and, in BUSY, CMD a legal command. -/
theorem runInv_of_not_init {t : State} (hp : t.phase ≠ .init) (hr : t.rctab = some primaryTable)
    (hc : t.phase = .busy → isCommand (decode t.cmd) = true) : RunInv t := by
  refine ⟨by simp [tableOk, hp, hr], ?_⟩
  by_cases hb : t.phase = .busy
  · simpa only [latchOk, if_pos hb] using hc hb
  · simp only [latchOk, if_neg hb]

/-- A sticky bit that a STATUS write turned off was written 1. -/
theorem written_of_clearIf {w flag : Bool} (hon : flag = true) (hoff : clearIf w flag = false) :
    w = true := by
  simpa [clearIf_eq, hon] using hoff

end Sys2Proof.Machine

namespace Sys2Proof.Proofs
open Sys2Proof.Machine

theorem runInv_reset (s : State) : RunInv (resetBlock s) := by
  simp [RunInv, tableOk, latchOk]

/-- Settles O47: in INIT the table is absent and there is no latch to check. -/
theorem runInvAtReset : Obligations.RunInvAtReset :=
  runInv_reset State.reset

/-- Settles O48, case by case of a step: after a reset the table is absent in INIT; the self-test passes and
fills the table; only an accept reaches BUSY, and it latches a legal word; nothing else touches phase or
table. -/
theorem stepKeepsRunInv : Obligations.StepKeepsRunInv := by
  intro s t hinv h
  have htab : s.phase ≠ .init → s.rctab = some primaryTable := rctab_of_runInv hinv
  cases stepCase_of_step h with
  | reset hr => exact runInv_reset _
  | selfTest hc hp =>
    rw [initStep_eq]
    exact runInv_of_not_init (by simp) rfl (by simp)
  | completion hc hp hd hm => exact runInv_of_not_init (by simp) (htab (by simp [hp])) (by simp)
  | illegal hw hp hd | outOfRange hw hp hd =>
    exact runInv_of_not_init (by simp [hp]) (htab (by simp [hp])) (by simp [hp])
  | accept hw hp hd => exact runInv_of_not_init (by simp) (htab (by simp [hp])) (by simp [hd])
  | rest | read | drop | clear => exact (runInv_congr rfl rfl rfl).2 hinv

/-- Settles O50: of the cases of a step, five change the phase. -/
theorem phaseMovesOnlyAsStated : Obligations.PhaseMovesOnlyAsStated := by
  intro s t h hne
  cases stepCase_of_step h with
  | reset hr => exact .inl ⟨hr, rfl⟩
  | selfTest hc hp =>
    rw [initStep_eq]
    exact .inr (.inl ⟨hc, hp, rfl⟩)
  | completion hc hp hd hm => exact .inr (.inr (.inr (.inr ⟨hc, hp, rfl⟩)))
  | accept hw hp hd => exact .inr (.inr (.inr (.inl ⟨hp, rfl, _, _, hw, hd⟩)))
  | rest | read | illegal | outOfRange | drop | clear => exact absurd rfl hne

/-- CMD is written by a reset and by the three answers to a CMD write in IDLE. -/
theorem cmd_written {s t : State} (h : StepCase s t) (hne : t.cmd ≠ s.cmd) :
    (resetMoves s = true ∧ t.cmd = 0) ∨
      (s.phase = .idle ∧ cmdWriteNext Config.base s = some t.cmd) := by
  cases h with
  | reset hr => exact .inl ⟨hr, rfl⟩
  | illegal hw hp hd | outOfRange hw hp hd | accept hw hp hd => exact .inr ⟨hp, hw⟩
  | selfTest | completion | rest | read | drop | clear => exact absurd rfl hne

/-- RES is written by a reset and by a completion. -/
theorem res_written {s t : State} (h : StepCase s t) (hne : t.res ≠ s.res) :
    (resetMoves s = true ∧ t.res = 0) ∨ (coreMoves s = true ∧ s.phase = .busy) := by
  cases h with
  | reset hr => exact .inl ⟨hr, rfl⟩
  | completion hc hp hd hm => exact .inr ⟨hc, hp⟩
  | selfTest | rest | read | illegal | outOfRange | accept | drop | clear => exact absurd rfl hne

/-- RCTAB is written by a reset and by the init step. -/
theorem rctab_written {s t : State} (h : StepCase s t) (hne : t.rctab ≠ s.rctab) :
    (resetMoves s = true ∧ t.rctab = none) ∨
      (coreMoves s = true ∧ s.phase = .init ∧ t.rctab = some primaryTable) := by
  cases h with
  | reset hr => exact .inl ⟨hr, rfl⟩
  | selfTest hc hp => exact .inr ⟨hc, hp, rfl⟩
  | completion | rest | read | illegal | outOfRange | accept | drop | clear => exact absurd rfl hne

/-- Settles O51, register by register. -/
theorem registersWrittenOnlyAsStated : Obligations.RegistersWrittenOnlyAsStated := fun _ _ h =>
  have hcase := stepCase_of_step h
  ⟨cmd_written hcase, res_written hcase, rctab_written hcase⟩

/-- DONE is turned on by a completion. -/
theorem done_set {s t : State} (h : StepCase s t) (hs : s.done = false) (ht : t.done = true) :
    coreMoves s = true ∧ s.phase = .busy := by
  cases h with
  | completion hc hp hd hm => exact ⟨hc, hp⟩
  | reset | selfTest | rest | read | illegal | outOfRange | accept | drop | clear =>
    simp [hs, clearIf_eq] at ht

/-- ERR_ILLEGAL is turned on by a CMD write in IDLE of an illegal word. -/
theorem errIllegal_set {s t : State} (h : StepCase s t) (hs : s.errIllegal = false)
    (ht : t.errIllegal = true) :
    s.phase = .idle ∧ ∃ v, cmdWriteNext Config.base s = some v ∧ decode v = .illegal := by
  cases h with
  | illegal hw hp hd => exact ⟨hp, _, hw, hd⟩
  | reset | selfTest | completion | rest | read | outOfRange | accept | drop | clear =>
    simp [hs, clearIf_eq] at ht

/-- ERR_RANGE is turned on by a CMD write in IDLE of an out-of-range word. -/
theorem errRange_set {s t : State} (h : StepCase s t) (hs : s.errRange = false)
    (ht : t.errRange = true) :
    s.phase = .idle ∧ ∃ v, cmdWriteNext Config.base s = some v ∧ decode v = .outOfRange := by
  cases h with
  | outOfRange hw hp hd => exact ⟨hp, _, hw, hd⟩
  | reset | selfTest | completion | rest | read | illegal | accept | drop | clear =>
    simp [hs, clearIf_eq] at ht

/-- ERR_MISMATCH is turned on by a completion whose command found a mismatch, so by one of the checks. -/
theorem errMismatch_set {s t : State} (h : StepCase s t) (hs : s.errMismatch = false)
    (ht : t.errMismatch = true) :
    coreMoves s = true ∧ s.phase = .busy ∧
      (decode s.cmd = .cmd .validate ∨ decode s.cmd = .cmd .xcheck) := by
  cases h with
  | completion hc hp hd hm =>
    refine ⟨hc, hp, ?_⟩
    have hmis := hm (by simpa [hs] using ht)
    rcases hmis with rfl | rfl
    · exact .inl hd
    · exact .inr hd
  | reset | selfTest | rest | read | illegal | outOfRange | accept | drop | clear =>
    simp [hs, clearIf_eq] at ht

/-- ERR_OVERRUN is turned on by a dropped CMD write. -/
theorem errOverrun_set {s t : State} (h : StepCase s t) (hs : s.errOverrun = false)
    (ht : t.errOverrun = true) :
    s.phase ≠ .idle ∧ ∃ v, cmdWriteNext Config.base s = some v := by
  cases h with
  | drop hw hp => exact ⟨hp, _, hw⟩
  | reset | selfTest | completion | rest | read | illegal | outOfRange | accept | clear =>
    simp [hs, clearIf_eq] at ht

/-- Settles O52, bit by bit. -/
theorem stickyBitsSetOnlyAsStated : Obligations.StickyBitsSetOnlyAsStated := fun _ _ h =>
  have hcase := stepCase_of_step h
  ⟨done_set hcase, errIllegal_set hcase, errRange_set hcase, errMismatch_set hcase,
    errOverrun_set hcase⟩

/-- DONE is turned off, but for a reset, by a CMD write in IDLE and by a STATUS write of 1 to it. -/
theorem done_cleared {s t : State} (h : StepCase s t) (hr : resetMoves s = false)
    (hs : s.done = true) (ht : t.done = false) :
    (s.phase = .idle ∧ ∃ v, cmdWriteNext Config.base s = some v) ∨
      (∃ v, statusWriteNext Config.base s = some v ∧ v.getLsbD 2 = true) := by
  cases h with
  | illegal hw hp hd | outOfRange hw hp hd | accept hw hp hd => exact .inl ⟨hp, _, hw⟩
  | clear hw => exact .inr ⟨_, hw, by simpa [clearIf_eq, hs] using ht⟩
  | reset hr' => simp [hr'] at hr
  | selfTest | completion | rest | read | drop => simp [hs] at ht

/-- But for a reset, an error bit stays on in every step that is no STATUS write. -/
theorem statusWrite_or_errors_stay {s t : State} (h : StepCase s t) (hr : resetMoves s = false) :
    (∃ v, statusWriteNext Config.base s = some v ∧ t = clearSticky v (spend s)) ∨
      ((s.errIllegal = true → t.errIllegal = true) ∧ (s.errRange = true → t.errRange = true) ∧
        (s.errMismatch = true → t.errMismatch = true) ∧
        (s.errOverrun = true → t.errOverrun = true)) := by
  cases h with
  | clear hw => exact .inl ⟨_, hw, rfl⟩
  | reset hr' => simp [hr'] at hr
  | selfTest | completion | rest | read | illegal | outOfRange | accept | drop =>
    exact .inr (by simp +contextual)

/-- Settles O53: an error bit that is off after the step was cleared by the STATUS write. -/
theorem stickyBitsClearedOnlyAsStated : Obligations.StickyBitsClearedOnlyAsStated := by
  intro s t h hr
  have hcase := stepCase_of_step h
  refine ⟨done_cleared hcase hr, ?_⟩
  rcases statusWrite_or_errors_stay hcase hr with ⟨v, hw, rfl⟩ | ⟨hill, hrange, hmis, hover⟩
  · refine ⟨?_, ?_, ?_, ?_⟩ <;> exact fun hs ht => ⟨v, hw, written_of_clearIf hs ht⟩
  · exact ⟨fun hs ht => absurd (hill hs) (by simp [ht]), fun hs ht => absurd (hrange hs) (by simp [ht]),
      fun hs ht => absurd (hmis hs) (by simp [ht]), fun hs ht => absurd (hover hs) (by simp [ht])⟩

end Sys2Proof.Proofs
end

section
/-!
PROOFS. The core's turn (30_encoding.md R72): a word read from its lanes (20_memory.md R47) is the word, a core
turn in BUSY runs the command latched in CMD, one in IDLE or FAILED changes nothing, and a read of an absent
RCTAB faults (10_state.md R29).
-/

namespace Sys2Proof

/-- A word is put together from its four lanes. -/
theorem wordOfLanes_lane (w : Word) :
    wordOfLanes (lane w 0) (lane w 1) (lane w 2) (lane w 3) = w := by
  have hhigh : lane w 3 ++ lane w 2 = w.extractLsb' 16 16 :=
    BitVec.extractLsb'_append_extractLsb'_eq_extractLsb' rfl
  have htop : lane w 3 ++ lane w 2 ++ lane w 1 = w.extractLsb' 8 24 := by
    rw [hhigh]
    exact BitVec.extractLsb'_append_extractLsb'_eq_extractLsb' rfl
  rw [wordOfLanes, htop]
  exact (BitVec.extractLsb'_append_extractLsb'_eq_extractLsb' rfl).trans BitVec.extractLsb'_eq_self

@[simp] theorem decodeBytes_lanes (w : Word) : decodeBytes (lanes w) = some (decode w, []) := by
  rw [lanes, decodeBytes, wordOfLanes_lane]

theorem ofNat_mod_word (w : Nat) : BitVec.ofNat 32 (w % 2 ^ 32) = BitVec.ofNat 32 w :=
  BitVec.eq_of_toNat_eq (by simp)

/-- A table row of full width that reads as a command is a word that decodes to it. -/
theorem decode_of_decodeTableWord {w : Nat} {i : Instr} (h : decodeTableWord 32 w = some i) :
    decode (BitVec.ofNat 32 w) = .cmd i := by
  rw [decodeTableWord, if_pos le_rfl, ofNat_mod_word, decodeBytes_lanes] at h
  cases hd : decode (BitVec.ofNat 32 w) with
  | cmd j => simpa [hd] using h
  | illegal | outOfRange => simp [hd] at h

end Sys2Proof

namespace Sys2Proof.Machine

theorem spend_of_nil {s : State} (h : s.schedule = []) : spend s = s := by
  cases s
  simp_all

/-- The step of the core's turn is the turn, taken on the state without the spent event. -/
theorem step_of_coreMoves {s : State} (h : coreMoves s = true) : step s = coreTurn (spend s) := by
  cases hs : s.schedule with
  | nil => rw [step_nil hs, spend_of_nil hs]
  | cons e rest =>
    rw [step_cons hs, spend, hs]
    cases e with
    | core => rfl
    | reset | read | write => simp [coreMoves, hs] at h

theorem readRctab_absent {s : State} (h : s.rctab = none) : readRctab s = .error .rctabAbsent := by
  simp [readRctab, h]

theorem completeCheck_error (check : RcTable → Byte × Bool) {s : State} {f : Fault}
    (h : readRctab s = .error f) : completeCheck check s = .fault f := by
  simp [completeCheck, h]

end Sys2Proof.Machine

namespace Sys2Proof.Proofs
open Sys2Proof.Machine

/-- Settles O45: a core turn in BUSY is exec of the command CMD decodes to; a placed word leaves BUSY, the
word in CMD and a core turn next. -/
theorem stepRunsLatchedCommand : Obligations.StepRunsLatchedCommand := by
  constructor
  · intro s i hc hp hd _
    have hcmd : decode s.cmd = .cmd i := by simpa using hd
    rw [step_of_coreMoves hc]
    exact coreTurn_busy hp hcmd
  · intro s w i hd
    have hcmd : decode (BitVec.ofNat 32 w) = .cmd i := decode_of_decodeTableWord hd
    have hplaced : s.withFetchWord 32 w = latchForCompletion (BitVec.ofNat 32 w) s := by
      rw [State.withFetchWord, ofNat_mod_word]
    rw [hplaced, step_of_coreMoves rfl]
    exact coreTurn_busy rfl hcmd

/-- Settles O46: both phases take the turn's arm that answers the state itself. -/
theorem coreRestsInIdleAndFailed : Obligations.CoreRestsInIdleAndFailed := by
  intro s hp
  rcases hp with hp | hp
  · simp only [coreTurn, hp]
  · simp only [coreTurn, hp]

/-- Settles O27: each of the three commands reads RCTAB first, and that read is the fault. -/
theorem absentTableFaults : Obligations.AbsentTableFaults := by
  intro s h
  have hread : readRctab s = .error .rctabAbsent := readRctab_absent h
  refine ⟨fun i => ?_, completeCheck_error _ hread, completeCheck_error _ hread⟩
  simp only [exec, execRcon, readRctabEntry, hread, completeRead]

end Sys2Proof.Proofs
end

section
/-!
PROOFS. STATUS bit by bit (10_state.md R26), and the state right after reset (70_reset_and_hazards.md R140).
-/

namespace Sys2Proof.Machine

/-- STATUS's defined bits, put on one at a time from bit 7 down to bit 0. -/
theorem statusBits_eq_concat (s : State) :
    statusBits s =
      (((((((BitVec.ofBool (stfailBit s)).concat s.errOverrun).concat s.errMismatch).concat
        s.errRange).concat s.errIllegal).concat s.done).concat (busyBit s)).concat (readyBit s) :=
  rfl

@[simp] theorem statusWord_bit0 (s : State) : (statusWord s)[0] = readyBit s := by
  simp [statusWord, statusBits_eq_concat]

@[simp] theorem statusWord_bit1 (s : State) : (statusWord s)[1] = busyBit s := by
  simp [statusWord, statusBits_eq_concat, BitVec.getElem_concat]

@[simp] theorem statusWord_bit2 (s : State) : (statusWord s)[2] = s.done := by
  simp [statusWord, statusBits_eq_concat, BitVec.getElem_concat]

@[simp] theorem statusWord_bit3 (s : State) : (statusWord s)[3] = s.errIllegal := by
  simp [statusWord, statusBits_eq_concat, BitVec.getElem_concat]

@[simp] theorem statusWord_bit4 (s : State) : (statusWord s)[4] = s.errRange := by
  simp [statusWord, statusBits_eq_concat, BitVec.getElem_concat]

@[simp] theorem statusWord_bit5 (s : State) : (statusWord s)[5] = s.errMismatch := by
  simp [statusWord, statusBits_eq_concat, BitVec.getElem_concat]

@[simp] theorem statusWord_bit6 (s : State) : (statusWord s)[6] = s.errOverrun := by
  simp [statusWord, statusBits_eq_concat, BitVec.getElem_concat]

@[simp] theorem statusWord_bit7 (s : State) : (statusWord s)[7] = stfailBit s := by
  simp [statusWord, statusBits_eq_concat]

/-- Only the low eight bits of STATUS are defined; the rest read 0. -/
theorem statusWord_high (s : State) {k : Nat} (hk : 8 ≤ k) : (statusWord s).getLsbD k = false := by
  simp [statusWord, BitVec.getLsbD_of_ge _ _ hk]

end Sys2Proof.Machine

namespace Sys2Proof.Proofs
open Sys2Proof.Machine

/-- Settles O36: the bits one by one, then the two facts from the phase being one of four. -/
theorem statusComposition : Obligations.StatusComposition := by
  intro s
  refine ⟨by simp [readyBit], by simp [busyBit], by simp, by simp, by simp, by simp, by simp,
    by simp [stfailBit], fun k hk => statusWord_high s hk, ?_, ?_⟩
  · cases hp : s.phase <;> simp [readyBit, stfailBit, hp]
  · cases hp : s.phase <;> simp [readyBit, busyBit, hp]

/-- Settles O40: each field's reset value is the one State.reset names. -/
theorem resetStateValues : Obligations.ResetStateValues :=
  ⟨rfl, rfl, rfl, rfl, rfl, rfl, rfl, rfl, rfl, by decide⟩

end Sys2Proof.Proofs
end

section
/-!
PROOFS. The byte lanes of the bus (20_memory.md R47): what each lane carries, and that the model's byte decoder
puts a word together from its own lanes.
-/

namespace Sys2Proof

/-- Lane k holds bits 8k+7 to 8k, as a number (R47). -/
theorem lane_toNat (w : Word) (k : Nat) : (lane w k).toNat = w.toNat / 2 ^ (8 * k) % 256 := by
  rw [lane, BitVec.extractLsb'_toNat, Nat.shiftRight_eq_div_pow]

theorem lane_zero_of_byte (b : Byte) : lane (b.setWidth 32) 0 = b := by
  ext i hi
  have hword : i < 32 := by omega
  simp [lane, hword, BitVec.getLsbD_eq_getElem hi]

/-- A byte widened to a word leaves every lane above the lowest one zero. -/
theorem lane_high_of_byte (b : Byte) {k : Nat} (hk : 1 ≤ k) : lane (b.setWidth 32) k = 0#8 := by
  ext i hi
  have hbit : b.getLsbD (8 * k + i) = false := BitVec.getLsbD_of_ge _ _ (by omega)
  simp [lane, hbit]

/-- The byte decoder takes a word's four lanes off the front and leaves the bytes after them. -/
theorem decodeBytes_lanes_append (w : Word) (rest : List Byte) :
    decodeBytes (lanes w ++ rest) = some (decode w, rest) := by
  simp only [lanes, List.cons_append, List.nil_append, decodeBytes, wordOfLanes_lane]

end Sys2Proof

namespace Sys2Proof.Proofs
open Sys2Proof.Machine

/-- RESULT carries RES in its lowest lane and zeros above it (R24, R47). -/
theorem lanes_resultWord (s : State) : lanes (resultWord s) = [s.res, 0#8, 0#8, 0#8] := by
  rw [lanes, resultWord, lane_zero_of_byte, lane_high_of_byte s.res (k := 1) (by decide),
    lane_high_of_byte s.res (k := 2) (by decide), lane_high_of_byte s.res (k := 3) (by decide)]

/-- Settles O8: a lane is a bit field, RESULT is RES widened with zeros, and a word is put together from its
lanes. -/
theorem lanesAreLittleEndian : Obligations.LanesAreLittleEndian :=
  ⟨lane_toNat, lanes_resultWord, decodeBytes_lanes_append⟩

end Sys2Proof.Proofs
end

section
/-!
PROOFS. Host accesses (20_memory.md R41 to R46): which accesses are admitted, in plain arithmetic, what an access
inside the window answers, and what a read and a STATUS write leave.
-/

namespace Sys2Proof.Machine

theorem word_aligned {base : Nat} (h : base % 16 = 0) : base % 4 = 0 := by omega

theorem inWindow_iff (base addr : Nat) :
    inWindow base addr = true ↔ base ≤ addr ∧ addr ≤ base + 15 := by
  simp [inWindow]

/-- R41 for a read: 4 bytes, aligned, at CMD, RESULT or STATUS. -/
theorem admitted_read_iff (base addr n : Nat) :
    admitted .read base addr n = true ↔
      n = 4 ∧ addr % 4 = 0 ∧ addr - base ∈ [0x0, 0x4, 0x8] := by
  simp [admitted, offCmd, offResult, offStatus, and_assoc, or_assoc]

/-- R41 for a write: as for a read, but not at RESULT. -/
theorem admitted_write_iff (base addr n : Nat) :
    admitted .write base addr n = true ↔ n = 4 ∧ addr % 4 = 0 ∧ addr - base ∈ [0x0, 0x8] := by
  simp [admitted, offCmd, offResult, offStatus]
  omega

theorem hostRead_admitted {base addr n : Nat} (s : State) (hw : inWindow base addr = true)
    (ha : admitted .read base addr n = true) :
    hostRead base addr n s = .next { s with readback := some (readReg (addr - base) s) } := by
  rw [hostRead, if_pos hw, if_pos ha]

theorem hostRead_not_admitted {base addr n : Nat} (s : State) (hw : inWindow base addr = true)
    (ha : ¬ admitted .read base addr n = true) :
    hostRead base addr n s = .fault (.accessFault addr n .read) := by
  rw [hostRead, if_pos hw, if_neg ha]

theorem hostWrite_admitted {base addr n : Nat} (v : Word) (s : State)
    (hw : inWindow base addr = true) (ha : admitted .write base addr n = true) :
    hostWrite base addr n v s = .next (writeReg (addr - base) v s) := by
  rw [hostWrite, if_pos hw, if_pos ha]

theorem hostWrite_not_admitted {base addr n : Nat} (v : Word) (s : State)
    (hw : inWindow base addr = true) (ha : ¬ admitted .write base addr n = true) :
    hostWrite base addr n v s = .fault (.accessFault addr n .write) := by
  rw [hostWrite, if_pos hw, if_neg ha]

/-- No register's value depends on what the host has read before. -/
theorem readReg_readback (off : Nat) (s : State) (r : Option Word) :
    readReg off { s with readback := r } = readReg off s := rfl

theorem resultWord_eq_ofNat (s : State) : resultWord s = BitVec.ofNat 32 s.res.toNat :=
  (BitVec.ofNat_toNat 32 s.res).symm

/-- The write-1-to-clear of R46 as one update of the five sticky bits. -/
theorem clearSticky_eq (v : Word) (s : State) :
    clearSticky v s =
      { s with
        done := s.done && !v.getLsbD 2
        errIllegal := s.errIllegal && !v.getLsbD 3
        errRange := s.errRange && !v.getLsbD 4
        errMismatch := s.errMismatch && !v.getLsbD 5
        errOverrun := s.errOverrun && !v.getLsbD 6 } := by
  simp only [clearSticky, clearIf_eq]

theorem clearSticky_idem (v : Word) (s : State) :
    clearSticky v (clearSticky v s) = clearSticky v s := by
  simp only [clearSticky_eq, Bool.and_assoc, Bool.and_self]

/-- 0x7C has a 1 for each of the five sticky bits (R46). -/
theorem clearSticky_all (s : State) :
    clearSticky 0x7C#32 s =
      { s with
        done := false
        errIllegal := false
        errRange := false
        errMismatch := false
        errOverrun := false } := rfl

end Sys2Proof.Machine

namespace Sys2Proof.Proofs
open Sys2Proof.Machine

/-- Settles O34: the write is the write-1-to-clear, in every phase; clearing twice is clearing once. -/
theorem statusWriteClears : Obligations.StatusWriteClears := by
  intro base v s hb
  have hwrite : ∀ (v : Word) (s : State),
      hostWrite base (base + 0x8) 4 v s = .next (clearSticky v s) :=
    fun v s => hostWrite_status v s (word_aligned hb)
  refine ⟨by rw [hwrite, clearSticky_eq], by rw [hwrite, clearSticky_all], fun t ht => ?_⟩
  have htv : clearSticky v s = t := by simpa [hwrite] using ht
  rw [hwrite, ← htv, clearSticky_idem]

/-- Settles O35: a read stores the register's value for the host and nothing else, and no register's value
depends on that. -/
theorem readsReturnRegisters : Obligations.ReadsReturnRegisters := by
  intro base s hb
  have hread : ∀ off ∈ [0x0, 0x4, 0x8], ∀ s : State,
      hostRead base (base + off) 4 s = .next { s with readback := some (readReg off s) } :=
    fun off ho s => hostRead_reg s (word_aligned hb) (by
      simpa [offCmd, offResult, offStatus] using ho)
  refine ⟨hread 0x0 (by simp) s, ?_, hread 0x8 (by simp) s, fun off ho t ht => ?_⟩
  · rw [← resultWord_eq_ofNat]
    exact hread 0x4 (by simp) s
  · have hts : { s with readback := some (readReg off s) } = t := by simpa [hread off ho] using ht
    subst hts
    rw [hread off ho, readReg_readback off s (some (readReg off s))]

/-- Settles O37: the access is inside the window, so it answers exactly when R41 admits it. -/
theorem unadmittedAccessFaults : Obligations.UnadmittedAccessFaults := by
  intro base addr n s _ hlo hhi
  have hw : inWindow base addr = true := (inWindow_iff base addr).2 ⟨hlo, hhi⟩
  refine ⟨?_, fun v => ?_⟩
  · split
    case isTrue ha => exact ⟨_, hostRead_admitted s hw ((admitted_read_iff base addr n).2 ha)⟩
    case isFalse ha =>
      exact hostRead_not_admitted s hw (mt (admitted_read_iff base addr n).1 ha)
  · split
    case isTrue ha => exact ⟨_, hostWrite_admitted v s hw ((admitted_write_iff base addr n).2 ha)⟩
    case isFalse ha =>
      exact hostWrite_not_admitted v s hw (mt (admitted_write_iff base addr n).1 ha)

end Sys2Proof.Proofs
end

section
/-!
PROOFS. Progress (20_memory.md R41, R43, 30_encoding.md R72, R73): a well-formed command completes once RCTAB is
present, decode answers only well-formed commands, and so no admitted event stops the machine.
-/

namespace Sys2Proof

/-- The index bound of R64 is checked before RCON or REFRD is answered. -/
theorem wellFormed_of_decodeOp {op : BitVec 4} {a b : Byte} {i : Instr}
    (h : decodeOp op a b = .cmd i) : wellFormed i = true := by
  unfold decodeOp at h
  split_ifs at h
  · cases h; rfl
  · cases h
    exact (Machine.wellFormed_rcon b).2 (Nat.le_of_not_lt ‹¬ b.toNat > Config.rangeMax›)
  · cases h; rfl
  · cases h
    exact (Machine.wellFormed_refrd b).2 (Nat.le_of_not_lt ‹¬ b.toNat > Config.rangeMax›)
  · cases h; rfl
  · cases h; rfl

theorem wellFormed_of_decode {w : Word} {i : Instr} (h : decode w = .cmd i) :
    wellFormed i = true := by
  unfold decode at h
  split at h
  · cases h
  · exact wellFormed_of_decodeOp h

end Sys2Proof

namespace Sys2Proof.Machine

theorem readRctab_present {s : State} {t : RcTable} (h : s.rctab = some t) :
    readRctab s = .ok t := by
  simp [readRctab, h]

theorem readRctabEntry_present {s : State} {t : RcTable} (h : s.rctab = some t) (i : Byte) :
    readRctabEntry s i = readTable t i := by
  simp [readRctabEntry, readRctab_present h]

/-- A well-formed command completes in every state whose RCTAB holds a value (R72, R73). -/
theorem exec_completes {i : Instr} {s : State} {tab : RcTable} (hwf : wellFormed i = true)
    (htab : s.rctab = some tab) : ∃ t, exec i s = .next t := by
  cases i with
  | gfmul a b => exact ⟨_, rfl⟩
  | rcon i =>
    obtain ⟨v, -, hv⟩ := readTable_ok tab i ((wellFormed_rcon i).1 hwf)
    exact ⟨_, completeRead_next.2 ⟨v, (readRctabEntry_present htab i).trans hv, rfl⟩⟩
  | rconalt r => exact ⟨_, rfl⟩
  | refrd i =>
    obtain ⟨v, -, hv⟩ := readTable_ok refTable i ((wellFormed_refrd i).1 hwf)
    exact ⟨_, completeRead_next.2 ⟨v, hv, rfl⟩⟩
  | validate => exact ⟨_, completeCheck_next.2 ⟨tab, htab, rfl⟩⟩
  | xcheck => exact ⟨_, completeCheck_next.2 ⟨tab, htab, rfl⟩⟩

/-- Under the run invariant the core's turn answers: in BUSY the latch holds a well-formed command and RCTAB
a value. -/
theorem coreTurn_answers {s : State} (hinv : RunInv s) : ∃ t, coreTurn s = .next t := by
  cases hp : s.phase with
  | init => exact ⟨initStep s, by simp only [coreTurn, hp]⟩
  | idle | failed => exact ⟨s, by simp only [coreTurn, hp]⟩
  | busy =>
    obtain ⟨i, hd⟩ := command_of_runInv hinv hp
    rw [coreTurn_busy hp hd]
    exact exec_completes (wellFormed_of_decode hd) (rctab_of_runInv hinv (by simp [hp]))

/-- Under the run invariant an admitted event answers. -/
theorem takeEvent_answers {base : Nat} {e : Event} {s : State} (hinv : RunInv s)
    (he : eventAdmitted base e = true) : ∃ t, takeEvent base e s = .next t := by
  cases e with
  | core => exact coreTurn_answers hinv
  | reset => exact ⟨_, rfl⟩
  | read addr n =>
    obtain ⟨hw, ha⟩ := (Bool.and_eq_true_iff).1 he
    exact ⟨_, hostRead_admitted s hw ha⟩
  | write addr n v =>
    obtain ⟨hw, ha⟩ := (Bool.and_eq_true_iff).1 he
    exact ⟨_, hostWrite_admitted v s hw ha⟩

end Sys2Proof.Machine

namespace Sys2Proof.Proofs
open Sys2Proof.Machine

/-- Settles O54: with no event left the step is the core's turn, and else the oldest event, which is
admitted; spending it keeps the invariant. -/
theorem admittedStepsNeverStop : Obligations.AdmittedStepsNeverStop := by
  intro s hinv hadm
  cases hs : s.schedule with
  | nil =>
    rw [step_nil hs]
    exact coreTurn_answers hinv
  | cons e rest =>
    rw [step_cons hs]
    exact takeEvent_answers ((runInv_congr rfl rfl rfl).2 hinv) (hadm e (by simp [hs]))

end Sys2Proof.Proofs
end

section
/-!
PROOFS. The command word (30_encoding.md R60 to R65): everything the case split of decode can answer, decode and
encode as inverses, and the illegal and the out-of-range words in plain arithmetic.
-/

namespace Sys2Proof

/-- Everything the case split of R65 can answer on the fields of a word with RSV = 0, with the guard of each
answer: the six rows of R62, the index past the tables (R64), and the three ways to be illegal (R63). -/
inductive DecodeOpCase : BitVec 4 → Byte → Byte → Decoded → Prop where
  | gfmul (a b : Byte) : DecodeOpCase 0x1#4 a b (.cmd (.gfmul a b))
  | rcon {b : Byte} (hb : b.toNat ≤ 28) : DecodeOpCase 0x2#4 0#8 b (.cmd (.rcon b))
  | rconalt (b : Byte) : DecodeOpCase 0x3#4 0#8 b (.cmd (.rconalt b))
  | refrd {b : Byte} (hb : b.toNat ≤ 28) : DecodeOpCase 0x4#4 0#8 b (.cmd (.refrd b))
  | validate : DecodeOpCase 0x5#4 0#8 0#8 (.cmd .validate)
  | xcheck : DecodeOpCase 0x6#4 0#8 0#8 (.cmd .xcheck)
  | pastTables {op : BitVec 4} {b : Byte} (hop : op.toNat ∈ [0x2, 0x4]) (hb : 29 ≤ b.toNat) :
      DecodeOpCase op 0#8 b .outOfRange
  | unassigned {op : BitVec 4} {a b : Byte}
      (hop : op.toNat ∈ [0x0, 0x7, 0x8, 0x9, 0xA, 0xB, 0xC, 0xD, 0xE, 0xF]) :
      DecodeOpCase op a b .illegal
  | firstOperand {op : BitVec 4} {a b : Byte} (hop : op.toNat ∈ [0x2, 0x3, 0x4]) (ha : a.toNat ≠ 0) :
      DecodeOpCase op a b .illegal
  | anyOperand {op : BitVec 4} {a b : Byte} (hop : op.toNat ∈ [0x5, 0x6])
      (hab : a.toNat ≠ 0 ∨ b.toNat ≠ 0) : DecodeOpCase op a b .illegal

/-- An opcode that none of the six rows of R62 has is one of the ten of R63 (b). -/
theorem unassigned_of_ne : ∀ op : BitVec 4,
    op ≠ 0x1#4 → op ≠ 0x2#4 → op ≠ 0x3#4 → op ≠ 0x4#4 → op ≠ 0x5#4 → op ≠ 0x6#4 →
      op.toNat ∈ [0x0, 0x7, 0x8, 0x9, 0xA, 0xB, 0xC, 0xD, 0xE, 0xF] := by
  decide

theorem decodeOpCase (op : BitVec 4) (a b : Byte) : DecodeOpCase op a b (decodeOp op a b) := by
  unfold decodeOp
  split_ifs with h1 h2 ha hb h3 ha h4 ha hb h5 hab h6 hab
  · subst h1; exact .gfmul a b
  · subst h2; exact .firstOperand (by simp) (BitVec.toNat_ne.1 ha)
  · subst h2; obtain rfl := not_not.1 ha; exact .pastTables (by simp) hb
  · subst h2; obtain rfl := not_not.1 ha; exact .rcon (Nat.le_of_not_lt hb)
  · subst h3; exact .firstOperand (by simp) (BitVec.toNat_ne.1 ha)
  · subst h3; obtain rfl := not_not.1 ha; exact .rconalt b
  · subst h4; exact .firstOperand (by simp) (BitVec.toNat_ne.1 ha)
  · subst h4; obtain rfl := not_not.1 ha; exact .pastTables (by simp) hb
  · subst h4; obtain rfl := not_not.1 ha; exact .refrd (Nat.le_of_not_lt hb)
  · subst h5; exact .anyOperand (by simp) (hab.imp BitVec.toNat_ne.1 BitVec.toNat_ne.1)
  · subst h5; obtain ⟨rfl, rfl⟩ : a = 0#8 ∧ b = 0#8 := by simpa using hab
    exact .validate
  · subst h6; exact .anyOperand (by simp) (hab.imp BitVec.toNat_ne.1 BitVec.toNat_ne.1)
  · subst h6; obtain ⟨rfl, rfl⟩ : a = 0#8 ∧ b = 0#8 := by simpa using hab
    exact .xcheck
  · exact .unassigned (unassigned_of_ne op h1 h2 h3 h4 h5 h6)

/-- Conditions (b) to (d) of R63, on the fields of a word with RSV = 0. -/
theorem decodeOp_illegal_iff (op : BitVec 4) (a b : Byte) :
    decodeOp op a b = .illegal ↔
      op.toNat ∈ [0x0, 0x7, 0x8, 0x9, 0xA, 0xB, 0xC, 0xD, 0xE, 0xF] ∨
      (op.toNat ∈ [0x2, 0x3, 0x4] ∧ a.toNat ≠ 0) ∨
      (op.toNat ∈ [0x5, 0x6] ∧ (a.toNat ≠ 0 ∨ b.toNat ≠ 0)) := by
  have hcase := decodeOpCase op a b
  generalize decodeOp op a b = d at hcase ⊢
  cases hcase with
  | unassigned hop => exact iff_of_true rfl (.inl hop)
  | firstOperand hop ha => exact iff_of_true rfl (.inr (.inl ⟨hop, ha⟩))
  | anyOperand hop hab => exact iff_of_true rfl (.inr (.inr ⟨hop, hab⟩))
  | pastTables hop hb =>
    simp only [List.mem_cons, List.not_mem_nil, or_false] at hop
    rcases hop with hop | hop <;> simp [hop]
  | gfmul | rcon | rconalt | refrd | validate | xcheck => simp

/-- R64, on the fields of a word with RSV = 0. -/
theorem decodeOp_outOfRange_iff (op : BitVec 4) (a b : Byte) :
    decodeOp op a b = .outOfRange ↔ op.toNat ∈ [0x2, 0x4] ∧ a.toNat = 0 ∧ 29 ≤ b.toNat := by
  have hcase := decodeOpCase op a b
  generalize decodeOp op a b = d at hcase ⊢
  cases hcase with
  | pastTables hop hb => exact iff_of_true rfl ⟨hop, rfl, hb⟩
  | unassigned hop | firstOperand hop ha | anyOperand hop hab =>
    refine iff_of_false nofun fun ⟨hindexed, hzero, _⟩ => ?_
    simp only [List.mem_cons, List.not_mem_nil, or_false] at hop hindexed
    omega
  | rcon hb | refrd hb => simp [Nat.lt_succ_of_le hb]
  | gfmul | rconalt | validate | xcheck => simp

/-- A command read from three fields is encoded with those fields: where an answer leaves a field out, its
guard has fixed the field. -/
theorem encode_of_decodeOp {op : BitVec 4} {a b : Byte} {i : Instr}
    (h : decodeOp op a b = .cmd i) : encode i = packWord op a b := by
  have hcase := decodeOpCase op a b
  rw [h] at hcase
  cases hcase with
  | gfmul | rcon | rconalt | refrd | validate | xcheck => rfl

/-- decode answers a command exactly on a word with RSV = 0 for which the case split does. -/
theorem decode_eq_cmd_iff_fields {w : Word} {i : Instr} :
    decode w = .cmd i ↔ rsvField w = 0#12 ∧ decodeOp (opField w) (aField w) (bField w) = .cmd i := by
  by_cases hrsv : rsvField w = 0#12 <;> simp [decode, hrsv]

theorem packWord_fields {w : Word} (hrsv : rsvField w = 0#12) :
    packWord (opField w) (aField w) (bField w) = w := by
  rw [packWord, ← hrsv, word_of_fields]

theorem encode_of_decode {w : Word} {i : Instr} (h : decode w = .cmd i) : encode i = w := by
  obtain ⟨hrsv, hop⟩ := decode_eq_cmd_iff_fields.1 h
  rw [encode_of_decodeOp hop, packWord_fields hrsv]

/-- The case split on a command's own fields: only RCON and REFRD have a check left, that of the index. -/
theorem decode_encode {i : Instr} (hwf : wellFormed i = true) : decode (encode i) = .cmd i := by
  cases i with
  | gfmul | rconalt | validate | xcheck => simp [encode, decodeOp]
  | rcon i =>
    have hi : ¬ Config.rangeMax < i.toNat := Nat.not_lt.2 ((Machine.wellFormed_rcon i).1 hwf)
    simp [encode, decodeOp, hi]
  | refrd i =>
    have hi : ¬ Config.rangeMax < i.toNat := Nat.not_lt.2 ((Machine.wellFormed_refrd i).1 hwf)
    simp [encode, decodeOp, hi]

/-- The words of a command: its one encoding when it is well formed, and else none. -/
theorem decode_eq_cmd_iff {w : Word} {i : Instr} :
    decode w = .cmd i ↔ wellFormed i = true ∧ encode i = w :=
  ⟨fun h => ⟨wellFormed_of_decode h, encode_of_decode h⟩, fun ⟨hwf, hw⟩ => hw ▸ decode_encode hwf⟩

/-- R63: (a) to (d), in arithmetic on the word. -/
theorem decode_illegal_iff (w : Word) :
    decode w = .illegal ↔
      (w.toNat / 2 ^ 16 % 2 ^ 12 ≠ 0 ∨
       w.toNat / 2 ^ 28 ∈ [0x0, 0x7, 0x8, 0x9, 0xA, 0xB, 0xC, 0xD, 0xE, 0xF] ∨
       (w.toNat / 2 ^ 28 ∈ [0x2, 0x3, 0x4] ∧ w.toNat / 2 ^ 8 % 2 ^ 8 ≠ 0) ∨
       (w.toNat / 2 ^ 28 ∈ [0x5, 0x6] ∧ (w.toNat / 2 ^ 8 % 2 ^ 8 ≠ 0 ∨ w.toNat % 2 ^ 8 ≠ 0))) := by
  rw [← rsvField_toNat, ← opField_toNat, ← aField_toNat, ← bField_toNat, ← decodeOp_illegal_iff]
  by_cases hrsv : rsvField w = 0#12
  · simp [decode, hrsv]
  · exact iff_of_true (if_pos hrsv) (.inl (BitVec.toNat_ne.1 hrsv))

/-- R64, in arithmetic on the word. -/
theorem decode_outOfRange_iff (w : Word) :
    decode w = .outOfRange ↔
      (w.toNat / 2 ^ 28 ∈ [0x2, 0x4] ∧ w.toNat / 2 ^ 16 % 2 ^ 12 = 0 ∧
       w.toNat / 2 ^ 8 % 2 ^ 8 = 0 ∧ 29 ≤ w.toNat % 2 ^ 8) := by
  rw [← rsvField_toNat, ← opField_toNat, ← aField_toNat, ← bField_toNat, and_left_comm,
    ← decodeOp_outOfRange_iff]
  by_cases hrsv : rsvField w = 0#12
  · simp [decode, hrsv]
  · have hne : (rsvField w).toNat ≠ 0 := BitVec.toNat_ne.1 hrsv
    simp [decode, hrsv, hne]

end Sys2Proof

namespace Sys2Proof.Machine

/-- A CMD write in IDLE is accepted (R45, R70). -/
theorem hostWrite_cmd_idle {base : Nat} (v : Word) {s : State} (hb : base % 16 = 0)
    (hp : s.phase = .idle) : hostWrite base (base + offCmd) 4 v s = .next (acceptCmd v s) := by
  rw [hostWrite_cmd v s (word_aligned hb), writeCmd_idle v hp]

end Sys2Proof.Machine

namespace Sys2Proof.Proofs
open Sys2Proof.Machine

/-- Settles O1, command by command. -/
theorem decodeOfEncode : Obligations.DecodeOfEncode := fun _ => decode_encode

/-- Settles O2: each answer that is a command has checked the index, and fixed every field the command does
not carry. -/
theorem encodeOfDecode : Obligations.EncodeOfDecode := fun _ _ => decode_eq_cmd_iff.1

/-- Settles O3: the words by their fields, and the write by the accept of R70. -/
theorem illegalWordsExactly : Obligations.IllegalWordsExactly := by
  refine ⟨decode_illegal_iff, (decode_illegal_iff _).2 (by simp), fun base w s hb hp hd => ?_⟩
  rw [← acceptCmd_illegal s hd]
  exact hostWrite_cmd_idle w hb hp

/-- Settles O4: the words by their fields, the write by the accept of R70, and RCONALT well formed for every
round. -/
theorem outOfRangeWordsExactly : Obligations.OutOfRangeWordsExactly := by
  refine ⟨decode_outOfRange_iff, fun base w s hb hp hd => ?_, fun r => ?_⟩
  · rw [← acceptCmd_outOfRange s hd]
    exact hostWrite_cmd_idle w hb hp
  · exact decode_encode (i := .rconalt r) rfl

/-- Settles O5: the fields are read back, and the case split is evaluated at each of the 16 opcodes. -/
theorem decodeCaseByCase : Obligations.DecodeCaseByCase := by
  intro op rsv a b
  rw [decode_append]
  obtain ⟨n, hn, rfl⟩ : ∃ n < 16, op = BitVec.ofNat 4 n := ⟨op.toNat, op.isLt, by simp⟩
  interval_cases n <;> rfl

/-- Settles O7: the row's bits are put into a word and decoded. -/
theorem specWordsDecode : Obligations.SpecWordsDecode := by
  unfold Obligations.SpecWordsDecode
  decide

end Sys2Proof.Proofs
end

section
/-!
PROOFS. The opcode table and the assembler (30_encoding.md R62, R74, R75): a word matches a row exactly when it is
the row's word for the operands in its fields, and the word of each line as a number.
-/

namespace Sys2Proof

@[simp] theorem opField_packWord (op : BitVec 4) (a b : Byte) : opField (packWord op a b) = op :=
  opField_append op 0#12 a b

@[simp] theorem rsvField_packWord (op : BitVec 4) (a b : Byte) : rsvField (packWord op a b) = 0#12 :=
  rsvField_append op 0#12 a b

@[simp] theorem aField_packWord (op : BitVec 4) (a b : Byte) : aField (packWord op a b) = a :=
  aField_append op 0#12 a b

@[simp] theorem bField_packWord (op : BitVec 4) (a b : Byte) : bField (packWord op a b) = b :=
  bField_append op 0#12 a b

/-- The mask of the row with two operands keeps OP and RSV. -/
theorem and_high (w : Word) : w &&& 0xFFFF0000#32 = opField w ++ rsvField w ++ 0#8 ++ 0#8 := by
  have h := Laws.Encoding.append_and (opField w) (.allOnes 4) (rsvField w) (.allOnes 12)
    (aField w) 0#8 (bField w) 0#8
  rw [word_of_fields] at h
  simp only [BitVec.and_allOnes, BitVec.and_zero] at h
  exact h

/-- The mask of the rows with one operand keeps OP, RSV and A. -/
theorem and_index (w : Word) :
    w &&& 0xFFFFFF00#32 = opField w ++ rsvField w ++ aField w ++ 0#8 := by
  have h := Laws.Encoding.append_and (opField w) (.allOnes 4) (rsvField w) (.allOnes 12)
    (aField w) (.allOnes 8) (bField w) 0#8
  rw [word_of_fields] at h
  simp only [BitVec.and_allOnes, BitVec.and_zero] at h
  exact h

theorem and_high_eq_iff (op : BitVec 4) (w : Word) :
    w &&& 0xFFFF0000#32 = packWord op 0#8 0#8 ↔ packWord op (aField w) (bField w) = w := by
  constructor
  · intro h
    rw [and_high] at h
    have hop : opField w = op := by simpa using congrArg opField h
    have hrsv : rsvField w = 0#12 := by simpa using congrArg rsvField h
    rw [← hop, packWord_fields hrsv]
  · intro h
    rw [← h, Laws.Encoding.packWord_and_high]

theorem and_index_eq_iff (op : BitVec 4) (w : Word) :
    w &&& 0xFFFFFF00#32 = packWord op 0#8 0#8 ↔ packWord op 0#8 (bField w) = w := by
  constructor
  · intro h
    rw [and_index] at h
    have hop : opField w = op := by simpa using congrArg opField h
    have hrsv : rsvField w = 0#12 := by simpa using congrArg rsvField h
    have ha : aField w = 0#8 := by simpa using congrArg aField h
    rw [← hop, ← ha, packWord_fields hrsv]
  · intro h
    rw [← h, Laws.Encoding.packWord_and_index]

theorem exists_gfmul_iff (w : Word) :
    (∃ a b, decode w = .cmd (.gfmul a b)) ↔ w &&& 0xFFFF0000#32 = 0x10000000#32 := by
  refine Iff.trans ⟨?_, fun h => ⟨_, _, decode_eq_cmd_iff.2 ⟨rfl, h⟩⟩⟩ (and_high_eq_iff 0x1#4 w).symm
  rintro ⟨a, b, h⟩
  rw [← encode_of_decode h]
  simp [encode]

/-- A row with one operand: the operand can only be the word's low byte. -/
theorem exists_operand_iff {op : BitVec 4} {row : Byte → Instr} (w : Word)
    (hrow : ∀ b, encode (row b) = packWord op 0#8 b) :
    (∃ b, decode w = .cmd (row b)) ↔
      w &&& 0xFFFFFF00#32 = packWord op 0#8 0#8 ∧ wellFormed (row (bField w)) = true := by
  rw [and_index_eq_iff, ← hrow, and_comm, ← decode_eq_cmd_iff]
  refine ⟨?_, fun h => ⟨_, h⟩⟩
  rintro ⟨b, h⟩
  have hb : bField w = b := by rw [← encode_of_decode h, hrow, bField_packWord]
  rw [hb, h]

/-- A row without operands has one word, its match bits. -/
theorem decode_eq_cmd_iff_full_mask {i : Instr} (w : Word) (hwf : wellFormed i = true) :
    decode w = .cmd i ↔ w &&& 0xFFFFFFFF#32 = encode i := by
  have hfull : w &&& 0xFFFFFFFF#32 = w := BitVec.and_allOnes
  rw [hfull, decode_eq_cmd_iff, and_iff_right hwf, eq_comm]

theorem packWord_toNat (op : BitVec 4) (a b : Byte) :
    (packWord op a b).toNat = op.toNat <<< 28 ||| a.toNat <<< 8 ||| b.toNat := by
  have h : (packWord op a b).toNat = ((op.toNat <<< 12 ||| 0) <<< 8 ||| a.toNat) <<< 8 ||| b.toNat := by
    simp only [packWord, BitVec.toNat_append]
    rfl
  rw [h, Nat.or_zero, Nat.shiftLeft_or_distrib, ← Nat.shiftLeft_add, ← Nat.shiftLeft_add]

/-- The word of an opcode and two operands given as numbers. -/
theorem packWord_ofNat (op : BitVec 4) {a b : Nat} (ha : a ≤ 255) (hb : b ≤ 255) :
    packWord op (BitVec.ofNat 8 a) (BitVec.ofNat 8 b) =
      BitVec.ofNat 32 (op.toNat <<< 28 ||| a <<< 8 ||| b) := by
  have h := packWord_toNat op (BitVec.ofNat 8 a) (BitVec.ofNat 8 b)
  rw [BitVec.toNat_ofNat, BitVec.toNat_ofNat, Nat.mod_eq_of_lt (Nat.lt_succ_of_le ha),
    Nat.mod_eq_of_lt (Nat.lt_succ_of_le hb)] at h
  rw [← h, BitVec.ofNat_toNat, BitVec.setWidth_eq]

/-- The word of an opcode and one operand given as a number. -/
theorem packWord_zero_ofNat (op : BitVec 4) {b : Nat} (hb : b ≤ 255) :
    packWord op 0#8 (BitVec.ofNat 8 b) = BitVec.ofNat 32 (op.toNat <<< 28 ||| b) := by
  simpa using packWord_ofNat op (Nat.zero_le 255) hb

end Sys2Proof

namespace Sys2Proof.Machine

/-- An operand bounded by k, at most 255, put into a word with A = 0: the word, or a refusal past k. -/
theorem map_packWord_bounded (op : BitVec 4) {k : Nat} (hk : k ≤ 255) (n : Nat) :
    (if n ≤ k then some (BitVec.ofNat 8 n) else none).map (packWord op 0#8) =
      if n ≤ k then some (BitVec.ofNat 32 (op.toNat <<< 28 ||| n)) else none := by
  split
  case isTrue hn => rw [Option.map_some, packWord_zero_ofNat op (hn.trans hk)]
  case isFalse => rfl

theorem assemble_gfmul (a b : Nat) : assemble (.gfmul a b) =
    if a ≤ 255 ∧ b ≤ 255 then some (BitVec.ofNat 32 (0x10000000 ||| a <<< 8 ||| b)) else none := by
  by_cases ha : a ≤ 255
  case neg => simp [assemble, asmByte, ha]
  case pos =>
    by_cases hb : b ≤ 255
    case neg => simp [assemble, asmByte, ha, hb]
    case pos => simp [assemble, asmByte, ha, hb, encode, packWord_ofNat 0x1#4 ha hb]

theorem assemble_xtime (b : Nat) : assemble (.xtime b) = assemble (.gfmul 0x02 b) := by
  have htwo : asmByte 0x02 = some 0x02#8 := rfl
  cases hb : asmByte b <;> simp [assemble, htwo, hb, xtime]

end Sys2Proof.Machine

namespace Sys2Proof.Proofs
open Sys2Proof.Machine

/-- Settles O6, row by row. -/
theorem opcodeTableMatches : Obligations.OpcodeTableMatches := fun w =>
  ⟨exists_gfmul_iff w,
    (exists_operand_iff w fun _ => rfl).trans (and_congr .rfl (by simp [wellFormed_rcon, bField_toNat])),
    (exists_operand_iff w fun _ => rfl).trans (and_iff_left rfl),
    (exists_operand_iff w fun _ => rfl).trans (and_congr .rfl (by simp [wellFormed_refrd, bField_toNat])),
    decode_eq_cmd_iff_full_mask w rfl,
    decode_eq_cmd_iff_full_mask w rfl⟩

/-- Settles O9: a line's word is packed from its opcode and operands, once they are in range. -/
theorem assemblerWords : Obligations.AssemblerWords :=
  ⟨assemble_gfmul, map_packWord_bounded 0x2#4 (by decide), map_packWord_bounded 0x3#4 le_rfl,
    map_packWord_bounded 0x4#4 (by decide), rfl, rfl, assemble_xtime, fun _ => rfl⟩

end Sys2Proof.Proofs
end

section
/-!
PROOFS. The life of a command (30_encoding.md R66, R70 to R72, R76): accept or drop, completion, and the polling of
STATUS.
-/

namespace Sys2Proof.Machine

/-- Over the primary table a well-formed command completes without a mismatch (R72, R112). -/
theorem exec_primaryTable {i : Instr} {s : State} (hwf : wellFormed i = true)
    (htab : s.rctab = some primaryTable) : ∃ r, exec i s = .next (complete r false s) := by
  obtain ⟨t, ht⟩ := exec_completes hwf htab
  obtain ⟨r, m, rfl, hcheck⟩ := exec_next ht
  cases m with
  | false => exact ⟨r, ht⟩
  | true =>
    rcases hcheck rfl with rfl | rfl
    · exact ⟨_, completeCheck_next.2 ⟨_, htab, by rw [validateTable_primary]⟩⟩
    · exact ⟨_, completeCheck_next.2 ⟨_, htab, by rw [xcheckTable_primary]⟩⟩

/-- What the accept of R70 makes of a state when the word is a command. -/
def accepted (w : Word) (s : State) : State := { s with cmd := w, done := false, phase := .busy }

/-- A well-formed command's word is accepted in IDLE. -/
theorem hostWrite_encode {base : Nat} {i : Instr} {s : State} (hb : base % 16 = 0)
    (hp : s.phase = .idle) (hwf : wellFormed i = true) :
    hostWrite base base 4 (encode i) s = .next (accepted (encode i) s) := by
  rw [accepted, ← acceptCmd_cmd s (decode_encode hwf)]
  exact hostWrite_cmd_idle (encode i) hb hp

theorem coreTurn_accepted {i : Instr} (s : State) (hwf : wellFormed i = true) :
    coreTurn (accepted (encode i) s) = exec i (accepted (encode i) s) :=
  coreTurn_busy rfl (decode_encode hwf)

/-- A command run from accept to a completion without a mismatch keeps a state clean. -/
theorem clean_complete_accepted {w : Word} {s : State} (r : Byte) (hclean : clean s = true) :
    clean (complete r false (accepted w s)) = true := by
  simp only [clean, Bool.and_eq_true] at hclean
  obtain ⟨⟨⟨⟨-, hill⟩, hrange⟩, hmis⟩, hover⟩ := hclean
  simp [clean, accepted, hill, hrange, hmis, hover]

end Sys2Proof.Machine

namespace Sys2Proof.Proofs
open Sys2Proof.Machine

/-- Settles O29: every completion is complete with some result, and with a mismatch only for the two checks. -/
theorem completionFrame : Obligations.CompletionFrame := by
  intro i s t h
  obtain ⟨r, m, rfl, hcheck⟩ := exec_next h
  refine ⟨rfl, rfl, rfl, rfl, rfl, rfl, rfl, rfl, rfl, fun hs => by simp [hs], fun hne => ?_⟩
  cases m with
  | false => exact absurd rfl hne
  | true => exact hcheck rfl

/-- Settles O31, answer by answer of decode. -/
theorem acceptByDecode : Obligations.AcceptByDecode := by
  intro base v s hb hp
  have hwrite : hostWrite base (base + 0x0) 4 v s = .next (acceptCmd v s) :=
    hostWrite_cmd_idle v hb hp
  rw [hwrite]
  exact ⟨fun hd => by rw [acceptCmd_illegal s hd], fun hd => by rw [acceptCmd_outOfRange s hd],
    fun i hd => by rw [acceptCmd_cmd s hd]⟩

/-- Settles O32: outside IDLE a CMD write is the drop of R71. -/
theorem dropOutsideIdle : Obligations.DropOutsideIdle := by
  intro base v s hb hp
  have hwrite : hostWrite base (base + 0x0) 4 v s = .next (writeCmd v s) :=
    hostWrite_cmd v s (word_aligned hb)
  rw [hwrite, writeCmd_not_idle v hp, dropCmd]

/-- Settles O57: wait reads BUSY, and waitready READY or STFAIL, which together are every phase but INIT. -/
theorem pollingSeesPhase : Obligations.PollingSeesPhase := by
  intro s
  constructor
  · simp [waitEnds, busyBit]
  · cases hp : s.phase <;> simp [waitreadyEnds, readyBit, stfailBit, hp]

/-- Settles O56: the encoded word is accepted, and over the primary table its completion finds no mismatch. -/
theorem commandLifecycle : Obligations.CommandLifecycle := by
  intro base s i hb hinv hp hwf
  have htab : s.rctab = some primaryTable := rctab_of_runInv hinv (by simp [hp])
  obtain ⟨r, hexec⟩ := exec_primaryTable (s := accepted (encode i) s) hwf htab
  have hresult (x : State) : hostRead base (base + 4) 4 x =
      .next { x with readback := some (BitVec.ofNat 32 x.res.toNat) } := by
    obtain ⟨-, hres, -⟩ := readsReturnRegisters base x hb
    exact hres
  exact ⟨accepted (encode i) s, complete r false (accepted (encode i) s),
    hostWrite_encode hb hp hwf, rfl, rfl, rfl, hresult _,
    hexec, (coreTurn_accepted s hwf).trans hexec, rfl, rfl, rfl, rfl, rfl, rfl, hresult _,
    by simp [readyBit], by simp [busyBit], by simp, clean_complete_accepted r⟩

end Sys2Proof.Proofs
end

section
/-!
PROOFS. The field arithmetic (40_gf_multiply.md). A bit string is read as a polynomial over GF(2) (R83) and this
as an element of GF(2)[x] modulo x^8+x^4+x^3+x+1. There the loop of R80 computes a product, and a byte is its
element's only name, so the statements about gfmul are read off ring laws.
-/

namespace Sys2Proof.Machine
open Polynomial Finset

/-- x^8+x^4+x^3+x+1, the polynomial of POLY (R5, R83). -/
noncomputable def modulus : (ZMod 2)[X] := X ^ 8 + X ^ 4 + X ^ 3 + X + 1

/-- The polynomial over GF(2) whose coefficient of x^k is bit k (R83). -/
noncomputable def bitsPoly {w : Nat} (v : BitVec w) : (ZMod 2)[X] :=
  ∑ k ∈ range w, if v.getLsbD k then X ^ k else 0

/-- The polynomial of a bit string modulo x^8+x^4+x^3+x+1. -/
noncomputable def residue {w : Nat} (v : BitVec w) : AdjoinRoot modulus :=
  AdjoinRoot.mk modulus (bitsPoly v)

/-! ### The polynomial of a bit string -/

@[simp] theorem coeff_bitsPoly {w : Nat} (v : BitVec w) (k : Nat) :
    (bitsPoly v).coeff k = if v.getLsbD k then 1 else 0 := by
  have hterm (i : Nat) : (if v.getLsbD i then X ^ i else 0 : (ZMod 2)[X]).coeff k =
      if k = i then (if v.getLsbD i then 1 else 0) else 0 := by
    cases v.getLsbD i <;> simp [coeff_X_pow]
  rw [bitsPoly, finsetSum_coeff, sum_congr rfl fun i _ => hterm i, sum_ite_eq]
  by_cases hk : k < w
  · simp [hk]
  · simp [hk, BitVec.getLsbD_of_ge v k (by omega)]

@[simp] theorem bitsPoly_zero (w : Nat) : bitsPoly 0#w = 0 := by
  ext k; simp

theorem bitsPoly_xor {w : Nat} (u v : BitVec w) :
    bitsPoly (u ^^^ v) = bitsPoly u + bitsPoly v := by
  ext k
  simp only [coeff_add, coeff_bitsPoly, BitVec.getLsbD_xor]
  cases u.getLsbD k <;> cases v.getLsbD k <;> simp [CharTwo.add_self_eq_zero]

/-- A value below 2^m has no bit at m or above. -/
theorem getLsbD_of_toNat_lt {w m k : Nat} {v : BitVec w} (h : v.toNat < 2 ^ m) (hk : m ≤ k) :
    v.getLsbD k = false :=
  Nat.testBit_lt_two_pow (h.trans_le (Nat.pow_le_pow_right two_pos hk))

theorem bitsPoly_setWidth {w m : Nat} {v : BitVec w} (h : v.toNat < 2 ^ m) :
    bitsPoly (v.setWidth m) = bitsPoly v := by
  ext k
  by_cases hk : k < m
  · simp [hk]
  · simp [BitVec.getLsbD_setWidth, getLsbD_of_toNat_lt h (not_lt.mp hk)]

/-- Horner's rule: the lowest bit, and x times the rest. -/
theorem bitsPoly_eq_low_add {w : Nat} (v : BitVec w) :
    bitsPoly v = (if v.getLsbD 0 then 1 else 0 : (ZMod 2)[X]) + X * bitsPoly (v >>> 1) := by
  ext k
  cases k with
  | zero => cases hv : v.getLsbD 0 <;> simp [hv]
  | succ k => cases v.getLsbD 0 <;> simp [coeff_X_mul, coeff_one, Nat.add_comm]

/-- From a value below 0x100 the shift of R80 loses nothing in 9 bits (R82). -/
theorem toNat_shiftLeft_one {x : Wide} (hx : x.toNat < 2 ^ 8) : (x <<< 1).toNat = 2 * x.toNat := by
  bv_omega

/-- A shift that loses no bit multiplies by x. -/
theorem bitsPoly_shiftLeft_one {x : Wide} (hx : x.toNat < 2 ^ 8) :
    bitsPoly (x <<< 1) = X * bitsPoly x := by
  have hback : (x <<< 1) >>> 1 = x := by
    have hshift := toNat_shiftLeft_one hx
    bv_omega
  rw [bitsPoly_eq_low_add, hback]
  simp

theorem bitsPoly_poly : bitsPoly poly = modulus := by
  have hbits : ∀ k < 9, poly.getLsbD k = decide (k ∈ [0, 1, 3, 4, 8]) := by decide
  have hsum : bitsPoly poly = ∑ k ∈ range 9, if k ∈ [0, 1, 3, 4, 8] then X ^ k else 0 :=
    sum_congr rfl fun k hk => by simp [hbits k (mem_range.mp hk)]
  simp [hsum, sum_range_succ, modulus, add_comm, add_assoc]

theorem degree_modulus : modulus.degree = 8 := by
  unfold modulus
  compute_degree!

/-! ### The element of the quotient -/

@[simp] theorem residue_zero (w : Nat) : residue 0#w = 0 := by simp [residue]

@[simp] theorem residue_xor {w : Nat} (u v : BitVec w) :
    residue (u ^^^ v) = residue u + residue v := by
  simp [residue, bitsPoly_xor]

@[simp] theorem residue_poly : residue poly = 0 := by
  rw [residue, bitsPoly_poly, AdjoinRoot.mk_self]

theorem residue_setWidth {w m : Nat} {v : BitVec w} (h : v.toNat < 2 ^ m) :
    residue (v.setWidth m) = residue v := by
  rw [residue, bitsPoly_setWidth h, residue]

/-- An operand taken to 9 bits, as the loop starts with it (R80), stays below 0x100. -/
theorem toNat_widened_lt (a : Byte) : (a.setWidth 9).toNat < 2 ^ 8 := by
  rw [BitVec.toNat_setWidth_of_le (by decide)]
  exact a.isLt

theorem residue_widened (a : Byte) : residue (a.setWidth 9) = residue a :=
  residue_setWidth (a.isLt.trans (by decide))

theorem residue_eq_low_add {w : Nat} (v : BitVec w) :
    residue v =
      (if v.getLsbD 0 then 1 else 0 : AdjoinRoot modulus) + AdjoinRoot.root modulus * residue (v >>> 1) := by
  rw [residue, bitsPoly_eq_low_add]
  cases v.getLsbD 0 <;> simp [residue]

@[simp] theorem residue_one : residue 0x01#8 = 1 := by
  rw [residue_eq_low_add, show 0x01#8 >>> 1 = 0#8 from rfl]
  simp

@[simp] theorem residue_two : residue 0x02#8 = AdjoinRoot.root modulus := by
  rw [residue_eq_low_add, show 0x02#8 >>> 1 = 0x01#8 from rfl]
  simp

/-- The modulus has degree 8 and a byte's polynomial a smaller one, so that two bytes with one element are
equal: their difference is a multiple of the modulus. -/
theorem residue_injective : Function.Injective (residue : Byte → AdjoinRoot modulus) := by
  intro a b h
  have hdvd : modulus ∣ bitsPoly (a ^^^ b) := by
    rw [bitsPoly_xor, ← CharTwo.sub_eq_add]
    exact AdjoinRoot.mk_eq_mk.mp h
  have hdeg : (bitsPoly (a ^^^ b)).degree < modulus.degree := by
    rw [degree_modulus]
    exact (degree_lt_iff_coeff_zero _ 8).mpr fun k hk => by
      rw [coeff_bitsPoly, BitVec.getLsbD_of_ge _ k hk]; rfl
  have hzero : bitsPoly (a ^^^ b) = 0 := eq_zero_of_dvd_of_degree_lt hdvd hdeg
  refine BitVec.xor_eq_zero_iff.mp (BitVec.eq_of_getLsbD_eq fun k _ => ?_)
  have hk := coeff_bitsPoly (a ^^^ b) k
  cases hbit : (a ^^^ b).getLsbD k <;> simp_all

/-! ### One pass, the loop and the product -/

/-- Bit 8 is 0 after a pass: POLY has it set, and is XORed when the shifted value has (R80, R82). -/
theorem shiftReduce_lt (x : Wide) : (shiftReduce x).toNat < 2 ^ 8 := by
  have hmsb : (shiftReduce x).msb = false := by
    rw [BitVec.msb_eq_getLsbD_last, shiftReduce]
    split <;> rename_i h8
    · rw [BitVec.getLsbD_xor, h8, show poly.getLsbD (9 - 1) = true from rfl, Bool.xor_self]
    · simpa using h8
  have hlt := BitVec.msb_eq_false_iff_two_mul_lt.mp hmsb
  omega

theorem residue_shiftReduce {x : Wide} (hx : x.toNat < 2 ^ 8) :
    residue (shiftReduce x) = AdjoinRoot.root modulus * residue x := by
  have hshift : residue (x <<< 1) = AdjoinRoot.root modulus * residue x := by
    rw [residue, bitsPoly_shiftLeft_one hx, map_mul, AdjoinRoot.mk_X, residue]
  rw [shiftReduce]
  split <;> simp [hshift]

@[simp] theorem gfLoop_operand_zero (n : Nat) (result : Byte) (x : Wide) :
    gfLoop n result x 0#8 = result := by
  cases n <;> simp [gfLoop]

/-- A pass takes the operand's lowest bit, also when the operand is 0. -/
theorem gfLoop_succ (n : Nat) (result : Byte) (x : Wide) (y : Byte) :
    gfLoop (n + 1) result x y =
      gfLoop n (if y.getLsbD 0 then result ^^^ x.setWidth 8 else result) (shiftReduce x) (y >>> 1) := by
  by_cases hy : y = 0#8
  · simp [hy]
  · rw [gfLoop, if_neg hy]

theorem ushiftRight_one_lt {k : Nat} {y : Byte} (hy : y.toNat < 2 ^ (k + 1)) : (y >>> 1).toNat < 2 ^ k := by
  rw [BitVec.toNat_ushiftRight, Nat.shiftRight_one]
  omega

theorem eq_zero_of_lt_one {y : Byte} (hy : y.toNat < 2 ^ 0) : y = 0#8 :=
  BitVec.eq_of_toNat_eq (Nat.lt_one_iff.mp hy)

/-- What a pass adds to the result: the first operand times a bit of the second. -/
theorem residue_conditional_xor (bit : Bool) (result : Byte) {x : Wide} (hx : x.toNat < 2 ^ 8) :
    residue (if bit then result ^^^ x.setWidth 8 else result) =
      residue result + residue x * if bit then 1 else 0 := by
  cases bit <;> simp [residue_setWidth hx]

/-- Loop invariant (R80, R83): the result so far plus the product of what is left of both operands. -/
theorem residue_gfLoop (n : Nat) (result : Byte) (x : Wide) (y : Byte)
    (hx : x.toNat < 2 ^ 8) (hy : y.toNat < 2 ^ n) :
    residue (gfLoop n result x y) = residue result + residue x * residue y := by
  induction n generalizing result x y with
  | zero => simp [eq_zero_of_lt_one hy]
  | succ n ih =>
    rw [gfLoop_succ, ih _ _ _ (shiftReduce_lt x) (ushiftRight_one_lt hy), residue_shiftReduce hx,
      residue_conditional_xor _ _ hx, residue_eq_low_add y]
    ring

/-- gfmul is multiplication in the quotient (R83). -/
@[simp] theorem residue_gfmul (a b : Byte) : residue (gfmul a b) = residue a * residue b := by
  rw [gfmul, residue_gfLoop 8 _ _ _ (toNat_widened_lt a) b.isLt, residue_widened, residue_zero,
    zero_add]

@[simp] theorem residue_gfPow (a : Byte) (n : Nat) : residue (gfPow a n) = residue a ^ n := by
  induction n with
  | zero => simp [gfPow]
  | succ n ih => rw [gfPow, residue_gfmul, ih, pow_succ']

end Sys2Proof.Machine
end

section
/-!
PROOFS. The field laws of gfmul (40_gf_multiply.md R84 to R86), read off the quotient ring; the inverses, from
the powers of 03; the powers of 02; and the statements about the multiply family.
-/

namespace Sys2Proof.Machine
open Finset

/-! ### Ring laws and inverses -/

theorem gfmul_comm (a b : Byte) : gfmul a b = gfmul b a :=
  residue_injective (by simp [mul_comm])

theorem gfmul_assoc (a b c : Byte) : gfmul (gfmul a b) c = gfmul a (gfmul b c) :=
  residue_injective (by simp [mul_assoc])

theorem gfmul_xor (a b c : Byte) : gfmul a (b ^^^ c) = gfmul a b ^^^ gfmul a c :=
  residue_injective (by simp [mul_add])

@[simp] theorem gfmul_one (a : Byte) : gfmul a 0x01#8 = a := residue_injective (by simp)

@[simp] theorem one_gfmul (a : Byte) : gfmul 0x01#8 a = a := residue_injective (by simp)

@[simp] theorem gfmul_zero (a : Byte) : gfmul a 0#8 = 0#8 := residue_injective (by simp)

@[simp] theorem zero_gfmul (a : Byte) : gfmul 0#8 a = 0#8 := residue_injective (by simp)

/-- A power that is 01 gives an element of finite order, and the order is that exponent when no prime can be
taken out of it; then two powers are equal exactly when their exponents agree modulo it. -/
theorem gfPow_eq_iff_mod {a : Byte} {n : Nat} (hn : 0 < n) (hone : gfPow a n = 0x01#8)
    (hleast : ∀ p ∈ n.primeFactors, gfPow a (n / p) ≠ 0x01#8) (i j : Nat) :
    gfPow a i = gfPow a j ↔ i % n = j % n := by
  have hpow (k : Nat) : residue a ^ k = 1 ↔ gfPow a k = 0x01#8 := by
    rw [← residue_gfPow, ← residue_one]
    exact residue_injective.eq_iff
  have horder : orderOf (residue a) = n :=
    orderOf_eq_of_pow_and_pow_div_prime hn ((hpow n).mpr hone) fun p hp hdvd h =>
      hleast p (Nat.mem_primeFactors.mpr ⟨hp, hdvd, hn.ne'⟩) ((hpow _).mp h)
  have hfin : IsOfFinOrder (residue a) := orderOf_pos_iff.mp (horder ▸ hn)
  rw [← residue_injective.eq_iff, residue_gfPow, residue_gfPow, hfin.pow_inj_mod, horder]

theorem gfPow_add (a : Byte) (m n : Nat) : gfPow a (m + n) = gfmul (gfPow a m) (gfPow a n) :=
  residue_injective (by simp [pow_add])

theorem gfPow_three_period : gfPow 0x03#8 255 = 0x01#8 := by decide +kernel

/-- 03 has order 255 = 3 * 5 * 17. -/
theorem gfPow_three_eq_iff (i j : Nat) : gfPow 0x03#8 i = gfPow 0x03#8 j ↔ i % 255 = j % 255 := by
  refine gfPow_eq_iff_mod (by decide) gfPow_three_period ?_ i j
  rw [show Nat.primeFactors 255 = {3, 5, 17} by decide +kernel]
  decide +kernel

theorem gfPow_three_mul_complement {k : Nat} (hk : k < 255) :
    gfmul (gfPow 0x03#8 k) (gfPow 0x03#8 (255 - k)) = 0x01#8 := by
  rw [← gfPow_add, Nat.add_sub_cancel' hk.le, gfPow_three_period]

/-- The 255 powers of 03 are different and none of them is 0, so they are all the nonzero bytes. -/
theorem exists_gfPow_three {a : Byte} (ha : a ≠ 0#8) : ∃ k < 255, gfPow 0x03#8 k = a := by
  have hnonzero : Set.MapsTo (gfPow 0x03#8) (range 255) (univ.erase (0#8 : Byte)) := fun k hk => by
    have hone := gfPow_three_mul_complement (mem_range.mp hk)
    simp only [coe_erase, coe_univ, Set.mem_sdiff, Set.mem_univ, Set.mem_singleton_iff, true_and]
    intro hzero
    simp [hzero] at hone
  have hinj : Set.InjOn (gfPow 0x03#8) (range 255) := fun i hi j hj h => by
    have hmod := (gfPow_three_eq_iff i j).mp h
    rwa [Nat.mod_eq_of_lt (mem_range.mp hi), Nat.mod_eq_of_lt (mem_range.mp hj)] at hmod
  have hcard : #(univ.erase (0#8 : Byte)) ≤ #(range 255) := by
    rw [card_erase_of_mem (mem_univ _), card_univ, Fintype.card_congr BitVec.equivFin.toEquiv]
    simp
  obtain ⟨k, hk, rfl⟩ := surjOn_of_injOn_of_card_le _ hnonzero hinj hcard (by simpa using ha)
  exact ⟨k, mem_range.mp hk, rfl⟩

/-- The irreducibility of the modulus enters here, as the order of 03. -/
theorem exists_inverse {a : Byte} (ha : a ≠ 0#8) : ∃ b, gfmul a b = 0x01#8 := by
  obtain ⟨k, hk, rfl⟩ := exists_gfPow_three ha
  exact ⟨_, gfPow_three_mul_complement hk⟩

theorem gfmul_left_cancel {a b c : Byte} (ha : a ≠ 0#8) (h : gfmul a b = gfmul a c) : b = c := by
  obtain ⟨d, hd⟩ := exists_inverse ha
  calc b = gfmul (gfmul d a) b := by rw [gfmul_comm d, hd, one_gfmul]
    _ = gfmul (gfmul d a) c := by rw [gfmul_assoc, h, gfmul_assoc]
    _ = c := by rw [gfmul_comm d, hd, one_gfmul]

theorem eq_zero_of_gfmul_eq_zero {a b : Byte} (h : gfmul a b = 0#8) : a = 0#8 ∨ b = 0#8 :=
  or_iff_not_imp_left.mpr fun ha => gfmul_left_cancel ha (h.trans (gfmul_zero a).symm)

theorem existsUnique_inverse {a : Byte} (ha : a ≠ 0#8) : ∃! b, gfmul a b = 0x01#8 := by
  obtain ⟨b, hb⟩ := exists_inverse ha
  exact ⟨b, hb, fun c hc => gfmul_left_cancel ha (hc.trans hb.symm)⟩

/-! ### Powers of 02, and doubling -/

/-- 02 has order 51 = 3 * 17 (R86). -/
theorem gfPow_two_eq_iff (i j : Nat) : gfPow 0x02#8 i = gfPow 0x02#8 j ↔ i % 51 = j % 51 := by
  refine gfPow_eq_iff_mod (by decide) (by decide +kernel) ?_ i j
  rw [show Nat.primeFactors 51 = {3, 17} by decide +kernel]
  decide +kernel

/-- Doubling is one pass of the reduction (R84). -/
theorem gfmul_two (x : Byte) : gfmul 0x02#8 x = (shiftReduce (x.setWidth 9)).setWidth 8 := by
  apply residue_injective
  rw [residue_gfmul, residue_two, residue_setWidth (shiftReduce_lt _),
    residue_shiftReduce (toNat_widened_lt x), residue_widened]

/-- Doubling as a number: the shift, with 0x11B added when bit 7 is set (R84). -/
theorem gfmul_two_toNat (x : Byte) :
    (gfmul 0x02#8 x).toNat = (x.toNat <<< 1) ^^^ (if x.getLsbD 7 then 0x11B else 0) := by
  have hshift : (x.setWidth 9 <<< 1).toNat = x.toNat <<< 1 := by
    rw [toNat_shiftLeft_one (toNat_widened_lt x), BitVec.toNat_setWidth_of_le (by decide),
      Nat.shiftLeft_eq, mul_comm]
  have hbit : (x.setWidth 9 <<< 1).getLsbD 8 = x.getLsbD 7 := by simp
  rw [gfmul_two, BitVec.toNat_setWidth, Nat.mod_eq_of_lt (shiftReduce_lt _), shiftReduce, hbit]
  cases x.getLsbD 7 <;> simp [hshift, poly]

end Sys2Proof.Machine

namespace Sys2Proof.Proofs
open Sys2Proof.Machine

/-- Settles O10: both sides are one element of the quotient. -/
theorem gfmulIsPolynomialProduct : Obligations.GfmulIsPolynomialProduct := by
  intro a b
  have hmul : AdjoinRoot.mk modulus (bitsPoly a * bitsPoly b) =
      AdjoinRoot.mk modulus (bitsPoly (gfmul a b)) :=
    (map_mul _ _ _).trans (residue_gfmul a b).symm
  exact AdjoinRoot.mk_eq_mk.mp hmul

/-- Settles O11: the ring laws hold in the quotient, and a nonzero byte is a power of 03, so it
has an inverse and cancels. -/
theorem gfmulFieldLaws : Obligations.GfmulFieldLaws :=
  ⟨gfmul_comm, gfmul_assoc, gfmul_xor, fun a => ⟨one_gfmul a, gfmul_one a⟩,
    fun a => ⟨gfmul_zero a, zero_gfmul a⟩, fun _ _ => eq_zero_of_gfmul_eq_zero,
    fun _ => existsUnique_inverse⟩

/-- Settles O13: the order of 02 is 51. -/
theorem powersOfTwoHavePeriod51 : Obligations.PowersOfTwoHavePeriod51 :=
  ⟨gfPow_two_eq_iff, (gfPow_two_eq_iff 51 0).mpr rfl, by decide, by decide, by decide⟩

/-- Settles O15, by induction on the width of the operand: each pass takes one bit of it. -/
theorem loopPassesSuffice : Obligations.LoopPassesSuffice := by
  intro k
  induction k with
  | zero =>
    intro n result x y hy _
    simp [eq_zero_of_lt_one hy]
  | succ k ih =>
    intro n result x y hy hn
    obtain ⟨m, rfl⟩ : ∃ m, n = m + 1 := ⟨n - 1, by omega⟩
    rw [gfLoop_succ, gfLoop_succ, ih m _ _ _ (ushiftRight_one_lt hy) (by omega)]

/-- Settles O12: the second form is the first one modulo 0x100. -/
theorem xtimeClosedForms : Obligations.XtimeClosedForms := by
  intro x
  refine ⟨gfmul_two_toNat x, ?_, rfl⟩
  calc (gfmul 0x02#8 x).toNat = (gfmul 0x02#8 x).toNat % 2 ^ 8 :=
        (Nat.mod_eq_of_lt (gfmul 0x02#8 x).isLt).symm
    _ = (x.toNat <<< 1) % 2 ^ 8 ^^^ (if x.getLsbD 7 then 0x11B else 0) % 2 ^ 8 := by
        rw [gfmul_two_toNat, Nat.xor_mod_two_pow]
    _ = ((x.toNat <<< 1) &&& 0xFF) ^^^ (if x.getLsbD 7 then 0x1B else 0) := by
        rw [← Nat.and_two_pow_sub_one_eq_mod]
        cases x.getLsbD 7 <;> rfl

/-- Settles O14: bit 8 of the reduced value is 0 by the XOR with POLY. -/
theorem nineBitsSuffice : Obligations.NineBitsSuffice := by
  intro x hx
  have hshift := toNat_shiftLeft_one hx
  exact ⟨hshift, by omega, shiftReduce_lt x⟩

/-- Settles O19: exec's own completion, and the laws of 0 and 01. -/
theorem gfmulCompletes : Obligations.GfmulCompletes := by
  have hexec (a b : Byte) (s : State) :
      exec (.gfmul a b) s = .next { s with res := gfmul a b, done := true, phase := .idle } := rfl
  exact ⟨hexec, fun a s => by simp [hexec]⟩

end Sys2Proof.Proofs
end

section
/-!
PROOFS. The round constants (41_round_constants.md). Both generators of round constants double, so their values are
powers of 02 and the relation between them is one of exponents modulo 51 (R90, R93, R95, R96); then the completions
of RCON, RCONALT and REFRD, and what a command's result depends on (R91, R92, R94, R98).
-/

namespace Sys2Proof.Machine

/-! ### The alternate recurrence -/

/-- The test of R93 on the shifted value as a number is R80's test of bit 8. -/
theorem getLsbD_eight_iff (x : Wide) : x.getLsbD 8 = true ↔ x.toNat > 0xFF := by
  have hmsb : x.getLsbD 8 = x.msb := (BitVec.msb_eq_getLsbD_last x).symm
  rw [hmsb, BitVec.msb_eq_true_iff_two_mul_ge]
  omega

/-- A pass of the alternate recurrence is a doubling (R93). -/
theorem rcPass_eq_double (v : Byte) : rcPass v = gfmul 0x02#8 v := by
  rw [gfmul_two, rcPass, shiftReduce]
  simp only [← getLsbD_eight_iff]
  split <;> rfl

theorem rcLoop_eq_iterate (n : Nat) (v : Byte) : rcLoop n v = (gfmul 0x02#8)^[n] v := by
  induction n generalizing v with
  | zero => rfl
  | succ n ih => rw [rcLoop, ih, rcPass_eq_double, Function.iterate_succ_apply]

/-- Multiplying n times by a is multiplying by the n-th power of a (R9). -/
theorem iterate_gfmul (a : Byte) (n : Nat) (v : Byte) :
    (gfmul a)^[n] v = gfmul (gfPow a n) v := by
  induction n with
  | zero => exact (one_gfmul v).symm
  | succ n ih => rw [Function.iterate_succ_apply', ih, gfPow, gfmul_assoc]

/-- The seed 0xCB is the 49th power of 02 (R95). -/
theorem gfPow_two_seed : gfPow 0x02#8 49 = 0xCB#8 := by decide

/-- Passes from the seed are powers of 02, with the exponent reduced modulo the order of 02 (R95). -/
theorem rcLoop_seed (n : Nat) : rcLoop (n + 1) 0xCB#8 = gfPow 0x02#8 ((n + 50) % 51) := by
  rw [rcLoop_eq_iterate, iterate_gfmul, ← gfPow_two_seed, ← gfPow_add, gfPow_two_eq_iff, Nat.mod_mod]

/-- compute_rc as a power of 02 (R95). -/
theorem computeRc_eq_gfPow (r : Byte) : computeRc r = gfPow 0x02#8 ((r.toNat + 50) % 51) :=
  rcLoop_seed r.toNat

/-- The alternate generator runs one index ahead of the powers of 02 (R95). -/
theorem computeRc_succ {i : Nat} (hi : i < 29) :
    computeRc (BitVec.ofNat 8 (i + 1)) = gfPow 0x02#8 i := by
  have hround : (BitVec.ofNat 8 (i + 1)).toNat = i + 1 := Nat.mod_eq_of_lt (by omega)
  rw [computeRc_eq_gfPow, gfPow_two_eq_iff, hround]
  omega

/-! ### The primary table -/

/-- The fold of R90 makes the powers of 02. -/
theorem primaryFrom_getElem {n i : Nat} (hi : i < n + 1) : (primaryFrom n)[i] = gfPow 0x02#8 i := by
  induction n generalizing i with
  | zero =>
    obtain rfl : i = 0 := by omega
    rfl
  | succ n ih =>
    have hback : (primaryFrom n).back = gfPow 0x02#8 n := ih (Nat.lt_succ_self n)
    rw [primaryFrom, Vector.getElem_push]
    split
    · exact ih _
    · obtain rfl : i = n + 1 := by omega
      rw [hback, gfPow, gen]

theorem primaryTable_getElem? {i : Nat} (hi : i < 29) : primaryTable[i]? = some (gfPow 0x02#8 i) := by
  rw [Vector.getElem?_eq_getElem hi]
  exact congrArg some (primaryFrom_getElem hi)

/-! ### The commands -/

/-- A read of a table answers the entry at the index. -/
theorem readTable_getElem? {t : RcTable} {i : Byte} {v : Byte} (h : t[i.toNat]? = some v) :
    readTable t i = .ok v := by
  rw [readTable, h]

/-- RCON completes with RCTAB's entry (R72, R91). -/
theorem exec_rcon {i : Byte} {s : State} {t : RcTable} {v : Byte} (htab : s.rctab = some t)
    (hv : t[i.toNat]? = some v) :
    exec (.rcon i) s = .next { s with res := v, done := true, phase := .idle } :=
  completeRead_next.2 ⟨v, (readRctabEntry_present htab i).trans (readTable_getElem? hv), rfl⟩

/-- REFRD completes with REFTAB's entry (R72, R92). -/
theorem exec_refrd {i : Byte} {v : Byte} (s : State) (hv : refTable[i.toNat]? = some v) :
    exec (.refrd i) s = .next { s with res := v, done := true, phase := .idle } :=
  completeRead_next.2 ⟨v, readTable_getElem? hv, rfl⟩

/-- RCONALT completes with compute_rc of its round (R72, R94). -/
theorem exec_rconalt (r : Byte) (s : State) :
    exec (.rconalt r) s = .next { s with res := computeRc r, done := true, phase := .idle } := rfl

/-- RCTAB is the only state a command reads for its completion (R98). -/
theorem exec_next_of_rctab_eq {i : Instr} {s s' t : State} (htab : s'.rctab = s.rctab)
    (h : exec i s = .next t) :
    ∃ r m, t = complete r m s ∧ exec i s' = .next (complete r m s') := by
  have hentry (j : Byte) : readRctabEntry s' j = readRctabEntry s j := by
    simp only [readRctabEntry, readRctab, htab]
  cases i with
  | gfmul a b => cases h; exact ⟨_, false, rfl, rfl⟩
  | rcon j =>
    obtain ⟨r, hr, rfl⟩ := completeRead_next.1 h
    exact ⟨r, false, rfl, completeRead_next.2 ⟨r, (hentry j).trans hr, rfl⟩⟩
  | rconalt r => cases h; exact ⟨_, false, rfl, rfl⟩
  | refrd j =>
    obtain ⟨r, hr, rfl⟩ := completeRead_next.1 h
    exact ⟨r, false, rfl, completeRead_next.2 ⟨r, hr, rfl⟩⟩
  | validate =>
    obtain ⟨tab, hs, rfl⟩ := completeCheck_next.1 h
    exact ⟨_, _, rfl, completeCheck_next.2 ⟨tab, htab.trans hs, rfl⟩⟩
  | xcheck =>
    obtain ⟨tab, hs, rfl⟩ := completeCheck_next.1 h
    exact ⟨_, _, rfl, completeCheck_next.2 ⟨tab, htab.trans hs, rfl⟩⟩

end Sys2Proof.Machine

namespace Sys2Proof.Proofs
open Sys2Proof.Machine

/-- Settles O17, by induction on the passes, each of which doubles. -/
theorem alternateRecurrenceDoubles : Obligations.AlternateRecurrenceDoubles :=
  ⟨rcLoop_eq_iterate, fun r => rcLoop_eq_iterate (r.toNat + 1) 0xCB#8⟩

/-- Settles O18: both generators give powers of 02, whose exponents count modulo 51. -/
theorem alternateIndexRelation : Obligations.AlternateIndexRelation := by
  have hentry (i : Nat) (hi : i < 29) : primaryTable[i]? = some (computeRc (BitVec.ofNat 8 (i + 1))) := by
    rw [primaryTable_getElem? hi, computeRc_succ hi]
  refine ⟨rcLoop_seed, computeRc_eq_gfPow, fun r hr hr' => ?_, hentry, gfPow_two_seed, by decide,
    by decide, ?_⟩
  · rw [hentry (r.toNat - 1) (by omega), Nat.sub_add_cancel hr, BitVec.ofNat_toNat, BitVec.setWidth_eq]
  · rw [primaryTable_getElem? (by decide)]
    decide

/-- Settles O23: RCONALT's completion, with compute_rc as the doublings of O17. -/
theorem rconaltCompletes : Obligations.RconaltCompletes := by
  intro r s
  obtain ⟨-, hdouble⟩ := alternateRecurrenceDoubles
  rw [exec_rconalt, hdouble]

/-- Settles O20: the index lies in the table, so the entry exists and is the one read. -/
theorem rconCompletes : Obligations.RconCompletes := by
  intro i s t hi htab
  obtain ⟨v, hv, -⟩ := readTable_ok t i hi
  exact ⟨v, hv, exec_rcon htab hv⟩

/-- Settles O21: in BUSY the invariant gives the primary table, whose entries are the powers. -/
theorem rconReadsPowerOfTwo : Obligations.RconReadsPowerOfTwo := by
  intro i s hi hinv hp
  exact exec_rcon (rctab_of_runInv hinv (by simp [hp])) (primaryTable_getElem? (by omega))

/-- Settles O22: the list holds REFTAB's entries in order. -/
theorem refrdCompletes : Obligations.RefrdCompletes := by
  intro i s hi
  obtain ⟨v, hv, -⟩ := readTable_ok refTable i hi
  exact ⟨v, (Vector.getElem?_toList ..).trans hv, exec_refrd s hv⟩

/-- Settles O30: the invariant gives both states the primary table, and a completion reads nothing else. -/
theorem resultDependsOnOperandsAlone : Obligations.ResultDependsOnOperandsAlone := by
  intro i s₁ s₂ t₁ t₂ hinv₁ hinv₂ hp₁ hp₂ h₁ h₂
  have htab : s₂.rctab = s₁.rctab :=
    (rctab_of_runInv hinv₂ (by simp [hp₂])).trans (rctab_of_runInv hinv₁ (by simp [hp₁])).symm
  obtain ⟨r, m, rfl, hexec⟩ := exec_next_of_rctab_eq htab h₁
  obtain rfl : complete r m s₂ = t₂ := by simpa [hexec] using h₂
  rfl

/-- Settles O16: the entries are the powers of 02, and the table is REFTAB. -/
theorem primaryTableIsReference : Obligations.PrimaryTableIsReference := by
  refine ⟨primaryTable_getElem? (by decide), fun i hi => ?_, fun i hi => primaryTable_getElem? hi, ?_,
    fun i _ => by rw [primaryTable_eq_refTable], validateTable_primary⟩
  · exact ⟨_, primaryTable_getElem? (by omega), primaryTable_getElem? (by omega)⟩
  · rw [primaryTable_eq_refTable]
    rfl

end Sys2Proof.Proofs
end

section
/-!
PROOFS. Validation (42_validation.md). Over any table a check answers 29 or the first index that disagrees (R110,
R111); over the primary table both pass, so no run sets ERR_MISMATCH, and no self-test fails (R112, R123, R142).
-/

namespace Sys2Proof.Machine

/-- validate passes a table that agrees with REFTAB (R110). -/
theorem validateTable_agrees {t : RcTable} (h : ∀ j < 29, t[j]? = refTable[j]?) :
    validateTable t = (29#8, false) :=
  checkFrom_agrees _ 29 0 fun j _ hj => beq_iff_eq.2 (h j (by omega))

/-- validate answers the first index where the table differs from REFTAB (R110). -/
theorem validateTable_first {t : RcTable} {k : Nat} (hk : k < 29) (h : ∀ j < k, t[j]? = refTable[j]?)
    (hne : t[k]? ≠ refTable[k]?) : validateTable t = (BitVec.ofNat 8 k, true) :=
  checkFrom_first _ 29 0 k (by omega) (by omega) (fun j _ hj => beq_iff_eq.2 (h j hj))
    (beq_eq_false_iff_ne.2 hne)

/-- xcheck passes a table whose entries are the alternate ones, one index ahead (R111). -/
theorem xcheckTable_agrees {t : RcTable}
    (h : ∀ j < 29, t[j]? = some (computeRc (BitVec.ofNat 8 (j + 1)))) :
    xcheckTable t = (29#8, false) :=
  checkFrom_agrees _ 29 0 fun j _ hj => beq_iff_eq.2 (h j (by omega))

/-- xcheck answers the first index whose entry is not the alternate one (R111). -/
theorem xcheckTable_first {t : RcTable} {k : Nat} (hk : k < 29)
    (h : ∀ j < k, t[j]? = some (computeRc (BitVec.ofNat 8 (j + 1))))
    (hne : t[k]? ≠ some (computeRc (BitVec.ofNat 8 (k + 1)))) :
    xcheckTable t = (BitVec.ofNat 8 k, true) :=
  checkFrom_first _ 29 0 k (by omega) (by omega) (fun j _ hj => beq_iff_eq.2 (h j hj))
    (beq_eq_false_iff_ne.2 hne)

/-- A check completes with what it answers over the table that RCTAB holds (R72, R73). -/
theorem completeCheck_of_eq {check : RcTable → Byte × Bool} {s : State} {t : RcTable} {r : Byte} {m : Bool}
    (htab : s.rctab = some t) (hcheck : check t = (r, m)) :
    completeCheck check s = .next (complete r m s) :=
  completeCheck_next.2 ⟨t, htab, by rw [hcheck]⟩

/-- FAILED is reached from no other phase: the self-test passes (R112, R142). -/
theorem failed_of_stepCase {s t : State} (h : StepCase s t) (ht : t.phase = .failed) :
    s.phase = .failed := by
  cases h with
  | reset hr => simp at ht
  | selfTest hc hp =>
    rw [initStep_eq] at ht
    cases ht
  | completion | accept => cases ht
  | rest | read | illegal | outOfRange | drop | clear => exact ht

/-- Under the invariant a core turn in BUSY completes its command without a mismatch (R72, R112). -/
theorem step_completes_without_mismatch {s : State} (hinv : RunInv s) (hc : coreMoves s = true)
    (hp : s.phase = .busy) : ∃ r, step s = .next (complete r false (spend s)) := by
  obtain ⟨i, hd⟩ := command_of_runInv hinv hp
  have htab : s.rctab = some primaryTable := rctab_of_runInv hinv (by simp [hp])
  rw [step_of_coreMoves hc, coreTurn_busy (s := spend s) hp hd]
  exact exec_primaryTable (wellFormed_of_decode hd) htab

end Sys2Proof.Machine

namespace Sys2Proof.Proofs
open Sys2Proof.Machine

/-- Settles O24: what validate answers over the table is what VALIDATE completes with. -/
theorem validateFindsFirstMismatch : Obligations.ValidateFindsFirstMismatch := fun _ _ htab =>
  ⟨fun h => completeCheck_of_eq htab (validateTable_agrees h),
    fun _ hk h hne => completeCheck_of_eq htab (validateTable_first hk h hne)⟩

/-- Settles O25: what xcheck answers over the table is what XCHECK completes with. -/
theorem xcheckFindsFirstMismatch : Obligations.XcheckFindsFirstMismatch := fun _ _ htab =>
  ⟨fun h => completeCheck_of_eq htab (xcheckTable_agrees h),
    fun _ hk h hne => completeCheck_of_eq htab (xcheckTable_first hk h hne)⟩

/-- Settles O26: in BUSY the invariant gives the primary table, and both checks pass it. -/
theorem bothChecksPass : Obligations.BothChecksPass := by
  intro s hinv hp
  have htab : s.rctab = some primaryTable := rctab_of_runInv hinv (by simp [hp])
  exact ⟨completeCheck_of_eq htab validateTable_primary, completeCheck_of_eq htab xcheckTable_primary⟩

/-- Settles O49: only a completion could set ERR_MISMATCH, and under the invariant it finds no mismatch. -/
theorem neverFailsNeverMismatches : Obligations.NeverFailsNeverMismatches := by
  intro s t hinv h
  have hcase : StepCase s t := stepCase_of_step h
  refine ⟨fun hs ht => hs (failed_of_stepCase hcase ht), fun hs => ?_⟩
  by_contra ht
  obtain ⟨hc, hp, -⟩ := errMismatch_set hcase hs (by simpa using ht)
  obtain ⟨r, hnext⟩ := step_completes_without_mismatch hinv hc hp
  obtain rfl : complete r false (spend s) = t := by simpa [hnext] using h
  exact ht hs

end Sys2Proof.Proofs
end

section
/-!
PROOFS. The errors of a CMD write (60_exceptions.md R126): the drop raises ERR_OVERRUN alone, and the accept raises
what decode answers, which is one error or none.
-/

namespace Sys2Proof.Proofs
open Sys2Proof.Machine

/-- Settles O33: outside IDLE the write is the drop of R71, and in IDLE the accept of R70, answer by answer of
decode. -/
theorem oneErrorPerCmdWrite : Obligations.OneErrorPerCmdWrite := by
  intro base v s t hb h
  have hwrite : hostWrite base base 4 v s = .next (writeCmd v s) := hostWrite_cmd v s (word_aligned hb)
  obtain rfl : writeCmd v s = t := by simpa [hwrite] using h
  by_cases hp : s.phase = .idle
  · rw [writeCmd_idle v hp]
    cases hd : decode v with
    | illegal => simp [acceptCmd_illegal s hd, hp]
    | outOfRange => simp [acceptCmd_outOfRange s hd, hp]
    | cmd i => simp [acceptCmd_cmd s hd, hp]
  · simp [writeCmd_not_idle v hp, hp]

end Sys2Proof.Proofs
end

section
/-!
PROOFS. Reset, the init step, runs over a schedule and the hazards of the host racing the core
(70_reset_and_hazards.md R140, R142, R150 to R157): an admitted step spends one event and keeps the invariant, and
the core's turn leaves no core step pending.
-/

namespace Sys2Proof.Machine

/-! ### Reset and the init step -/

theorem statusWord_resetBlock (s : State) : statusWord (resetBlock s) = statusWord State.reset := rfl

/-- In INIT the core's turn is the init step, whose self-test passes (R142). -/
theorem coreTurn_init {s : State} (hp : s.phase = .init) :
    coreTurn s = .next { s with rctab := some primaryTable, phase := .idle } := by
  simp only [coreTurn, hp, initStep_eq]

/-! ### Runs over a schedule -/

/-- A step spends the oldest event and schedules none. -/
theorem schedule_of_step {s t : State} (h : step s = .next t) : t.schedule = s.schedule.tail := by
  cases stepCase_of_step h with
  | reset | selfTest | completion | rest | read | illegal | outOfRange | accept | drop | clear => rfl

/-- After the core's turn no core step is pending: it ends in IDLE or FAILED (R27, R72, R142). -/
theorem quiescent_of_coreTurn {s t : State} (h : coreTurn s = .next t) : quiescent t = true := by
  rcases coreTurn_next h with ⟨-, rfl⟩ | ⟨-, i, -, hx⟩ | ⟨hp, rfl⟩
  · rw [initStep_eq]
    rfl
  · obtain ⟨r, m, rfl, -⟩ := exec_next hx
    rfl
  · rcases hp with hp | hp <;> simp [quiescent, hp]

/-! ### Commands in a run -/

/-- In BUSY the core's turn completes the latched command, over the primary table without a mismatch. -/
theorem coreTurn_completes {s : State} (hinv : RunInv s) (hp : s.phase = .busy) :
    ∃ r, coreTurn s = .next (complete r false s) := by
  obtain ⟨i, hd⟩ := command_of_runInv hinv hp
  rw [coreTurn_busy hp hd]
  exact exec_primaryTable (wellFormed_of_decode hd) (rctab_of_runInv hinv (by simp [hp]))

/-- A scheduled write of a well-formed command's word is accepted in IDLE (R70). -/
theorem step_accepts {s : State} {i : Instr} {rest : List Event}
    (h : s.schedule = writeEvent Config.base .cmd (encode i) :: rest) (hp : s.phase = .idle)
    (hwf : wellFormed i = true) :
    step s = .next (accepted (encode i) { s with schedule := rest }) := by
  rw [step_cmdWrite h, writeCmd_idle (s := { s with schedule := rest }) _ hp,
    acceptCmd_cmd _ (decode_encode hwf), accepted]

/-- A scheduled CMD write outside IDLE is dropped (R71). -/
theorem step_drops {s : State} {v : Word} {rest : List Event}
    (h : s.schedule = writeEvent Config.base .cmd v :: rest) (hp : s.phase ≠ .idle) :
    step s = .next (dropCmd { s with schedule := rest }) := by
  rw [step_cmdWrite h, writeCmd_not_idle (s := { s with schedule := rest }) _ hp]

/-- The core's turn in BUSY is exec of the command whose word CMD holds (R72). -/
theorem step_runs_latched {s : State} {i : Instr} (hc : coreMoves s = true) (hp : s.phase = .busy)
    (hcmd : s.cmd = encode i) (hwf : wellFormed i = true) : step s = exec i (spend s) := by
  obtain ⟨hruns, -⟩ := Proofs.stepRunsLatchedCommand
  exact hruns s i hc hp (by simp [hcmd, decode_encode hwf]) hwf

/-- A command written in IDLE, with the core's turn next, is accepted and completed by the next two steps. -/
theorem run_write_core {s : State} {i : Instr} {rest : List Event}
    (h : s.schedule = writeEvent Config.base .cmd (encode i) :: .core :: rest) (hp : s.phase = .idle)
    (htab : s.rctab = some primaryTable) (hwf : wellFormed i = true) :
    ∃ r, ∀ n, core.run (n + 2) s =
      core.run n (complete r false (accepted (encode i) { s with schedule := rest })) := by
  obtain ⟨r, hexec⟩ := exec_primaryTable (s := accepted (encode i) { s with schedule := rest }) hwf htab
  have hcomplete : step (accepted (encode i) { s with schedule := .core :: rest }) =
      .next (complete r false (accepted (encode i) { s with schedule := rest })) :=
    (step_runs_latched rfl rfl rfl hwf).trans hexec
  exact ⟨r, fun n => by rw [run_succ _ (step_accepts h hp hwf), run_succ _ hcomplete]⟩

/-- A CMD write between the accept of a command and the core's turn is dropped, and the command completes with
the result it has in any state x with the same RCTAB (R71, R98, R151). -/
theorem run_write_write_core {s x u : State} {i : Instr} {v : Word} {rest : List Event}
    (h : s.schedule =
      writeEvent Config.base .cmd (encode i) :: writeEvent Config.base .cmd v :: .core :: rest)
    (hp : s.phase = .idle) (htab : s.rctab = x.rctab) (hwf : wellFormed i = true)
    (hu : exec i x = .next u) :
    ∃ r m, r = u.res ∧ ∀ n, core.run (n + 3) s =
      core.run n (complete r m (dropCmd (accepted (encode i) { s with schedule := rest }))) := by
  obtain ⟨r, m, rfl, hexec⟩ := exec_next_of_rctab_eq
    (s' := dropCmd (accepted (encode i) { s with schedule := rest })) htab hu
  have hdrop : step (accepted (encode i)
        { s with schedule := writeEvent Config.base .cmd v :: .core :: rest }) =
      .next (dropCmd (accepted (encode i) { s with schedule := .core :: rest })) :=
    step_drops rfl (by simp [accepted])
  have hcomplete : step (dropCmd (accepted (encode i) { s with schedule := .core :: rest })) =
      .next (complete r m (dropCmd (accepted (encode i) { s with schedule := rest }))) :=
    (step_runs_latched rfl rfl rfl hwf).trans hexec
  exact ⟨r, m, rfl, fun n => by
    rw [run_succ _ (step_accepts h hp hwf), run_succ _ hdrop, run_succ _ hcomplete]⟩

/-- Every CMD write that is not dropped stores its word (R70). -/
@[simp] theorem acceptCmd_stores (v : Word) (s : State) : (acceptCmd v s).cmd = v := by
  cases hd : decode v <;> simp [acceptCmd, hd]

/-- Every CMD write that is not dropped clears DONE (R70, R152). -/
@[simp] theorem acceptCmd_clears_done (v : Word) (s : State) : (acceptCmd v s).done = false := by
  cases hd : decode v <;> simp [acceptCmd, hd]

end Sys2Proof.Machine

namespace Sys2Proof.Proofs
open Sys2Proof.Machine

/-- Settles O55, by induction on the schedule: an admitted step answers, spends its event and keeps the
invariant, and the core's turn after the last event leaves a quiescent state. -/
theorem admittedRunsEndQuiescent : Obligations.AdmittedRunsEndQuiescent := by
  intro s hinv hadm
  induction hs : s.schedule generalizing s with
  | nil =>
    obtain ⟨t, ht⟩ := coreTurn_answers hinv
    have hstep : step s = .next t := (step_nil hs).trans ht
    have hsched : t.schedule = [] := by simpa [hs] using schedule_of_step hstep
    exact ⟨t, run_succ 0 hstep, quiescent_of_coreTurn ht, hsched, stepKeepsRunInv s t hinv hstep⟩
  | cons e rest ih =>
    obtain ⟨t, hstep⟩ := admittedStepsNeverStop s hinv fun x hx => hadm x (List.mem_of_head? hx)
    have hsched : t.schedule = rest := by simpa [hs] using schedule_of_step hstep
    have hadm' : ∀ x ∈ t.schedule, eventAdmitted Config.base x = true := fun x hx =>
      hadm x (by rw [hs, ← hsched]; exact List.mem_cons_of_mem e hx)
    rw [List.length_cons, run_succ _ hstep]
    exact ih t (stepKeepsRunInv s t hinv hstep) hadm' hsched

/-- Settles O39: outside IDLE a CMD write is dropped, and a read, a drop and a STATUS write touch none of the
four fields. -/
theorem hostAccessKeepsCoreStepEnabled : Obligations.HostAccessKeepsCoreStepEnabled := by
  intro base s t _ hp haccess
  have hne : s.phase ≠ .idle := by rcases hp with hp | hp <;> simp [hp]
  rcases haccess with ⟨addr, n, hread⟩ | ⟨addr, n, v, hwrite⟩
  · obtain rfl := hostRead_next hread
    exact ⟨rfl, rfl, rfl, rfl⟩
  · rcases hostWrite_next hwrite with ⟨-, -, rfl⟩ | ⟨-, -, rfl⟩
    · rw [writeCmd_not_idle v hne]
      exact ⟨rfl, rfl, rfl, rfl⟩
    · exact ⟨rfl, rfl, rfl, rfl⟩

/-- Settles O58. With the core's turn between the writes each command is accepted in IDLE and completed;
without it the second write is dropped, and the last core turn finds the block at rest in IDLE. -/
theorem overrunRaceHasTwoOutcomes : Obligations.OverrunRaceHasTwoOutcomes := by
  intro s i j hinv hp hi hj
  have htab : s.rctab = some primaryTable := rctab_of_runInv hinv (by simp [hp])
  constructor
  · obtain ⟨r, hfirst⟩ := run_write_core (s := { s with schedule := _ }) rfl hp htab hi
    obtain ⟨r', hsecond⟩ := run_write_core
      (s := complete r false (accepted (encode i) { s with schedule := [_, .core] })) rfl rfl htab hj
    exact ⟨_, (hfirst 2).trans (hsecond 0), rfl, rfl, rfl, rfl⟩
  · obtain ⟨u, hu⟩ := exec_completes (s := { s with phase := .busy, cmd := encode i }) hi htab
    obtain ⟨r, m, hres, hrun⟩ := run_write_write_core (v := encode j) (rest := [.core])
      (s := { s with schedule := _ }) (x := { s with phase := .busy, cmd := encode i }) rfl hp rfl hi hu
    have hrest : step (complete r m (dropCmd (accepted (encode i) { s with schedule := [.core] }))) =
        .next (complete r m (dropCmd (accepted (encode i) { s with schedule := [] }))) :=
      (step_of_coreMoves rfl).trans (coreRestsInIdleAndFailed _ (.inl rfl))
    exact ⟨_, u, (hrun 1).trans (run_succ 0 hrest), hu, hres, rfl, rfl, rfl, rfl⟩

/-- Settles O59: a STATUS write keeps the latched command, whose completion sets DONE, and clears DONE in any
phase; an accepted CMD write clears DONE whatever decode answers. -/
theorem doneClearedWhileBusyIsSetAgain : Obligations.DoneClearedWhileBusyIsSetAgain := by
  constructor
  · intro base v s hb hv hinv hp
    have hclear : ∀ x : State, hostWrite base (base + 8) 4 v x = .next (clearSticky v x) ∧
        (clearSticky v x).done = false := fun x =>
      ⟨hostWrite_status v x (word_aligned hb), by simp [clearIf_eq, hv]⟩
    obtain ⟨hwrite, hdone⟩ := hclear s
    obtain ⟨r, hturn⟩ := coreTurn_completes (s := clearSticky v s) ((runInv_congr rfl rfl rfl).2 hinv) hp
    obtain ⟨hwrite', hdone'⟩ := hclear (complete r false (clearSticky v s))
    exact ⟨_, _, _, hwrite, hdone, hturn, rfl, rfl, hwrite', hdone', rfl⟩
  · intro base v s hb hp
    exact ⟨acceptCmd v s, hostWrite_cmd_idle v hb hp, acceptCmd_stores v s, acceptCmd_clears_done v s⟩

/-- Settles O41: the event is the reset of R140, and STATUS depends on none of the two fields that it keeps. -/
theorem resetEventRestartsBlock : Obligations.ResetEventRestartsBlock := fun _ s =>
  ⟨resetBlock s, rfl, rfl, rfl, rfl, rfl, rfl, rfl, rfl, rfl, rfl,
    (statusWord_resetBlock s).trans (by decide)⟩

/-- Settles O42: the init step, and its STATUS on the state after reset. -/
theorem initStepReachesIdle : Obligations.InitStepReachesIdle :=
  ⟨fun _ hp => coreTurn_init hp, _, coreTurn_init rfl, by decide⟩

end Sys2Proof.Proofs
end

section
/-!
PROOFS. Where the machine stops outside the rules, and the form of a step (log entries 1, 2, 5, 7): an index past the
tables, a latch that holds no command, an access outside the window, and the mover of a step.
-/

namespace Sys2Proof.Machine

theorem completeRead_error {v : Except Fault Byte} {f : Fault} (s : State) (h : v = .error f) :
    completeRead v s = .fault f := by
  rw [h, completeRead]

/-- In BUSY the core's turn stops on a latch that decode answers no command for. -/
theorem coreTurn_latchNotLegal {s : State} (hp : s.phase = .busy) (hd : isCommand (decode s.cmd) = false) :
    coreTurn s = .fault (.latchNotLegal s.cmd) := by
  cases hdec : decode s.cmd with
  | illegal | outOfRange => simp only [coreTurn, hp, hdec]
  | cmd i => simp [hdec, isCommand] at hd

theorem not_inWindow {base addr : Nat} (h : addr < base ∨ base + 15 < addr) :
    ¬ inWindow base addr = true := by
  rw [inWindow_iff]
  omega

theorem hostRead_outsideWindow {base addr : Nat} (n : Nat) (s : State) (hw : ¬ inWindow base addr = true) :
    hostRead base addr n s = .refused (.outsideWindow addr n .read) := by
  rw [hostRead, if_neg hw]

theorem hostWrite_outsideWindow {base addr : Nat} (n : Nat) (v : Word) (s : State)
    (hw : ¬ inWindow base addr = true) :
    hostWrite base addr n v s = .refused (.outsideWindow addr n .write) := by
  rw [hostWrite, if_neg hw]

end Sys2Proof.Machine

namespace Sys2Proof.Proofs
open Sys2Proof.Machine

/-- Settles O28: RCON and REFRD complete with a table read, which an index past the table turns into the fault; a
latch without a command leaves the core's turn nothing to run. -/
theorem unacceptedWordsStop : Obligations.UnacceptedWordsStop := by
  refine ⟨fun i s hi htab => ?_, fun i s hi => ?_, fun s => coreTurn_latchNotLegal⟩
  · obtain ⟨tab, htab⟩ := Option.isSome_iff_exists.1 htab
    have hread : readRctabEntry s i = .error (.indexPastTable i) :=
      (readRctabEntry_present htab i).trans (readTable_past tab i hi)
    exact completeRead_error s hread
  · have hread : readRefEntry i = .error (.indexPastTable i) := readTable_past refTable i hi
    exact completeRead_error s hread

/-- Settles O38: an access outside the window is refused before R41 is asked. -/
theorem outsideWindowRefused : Obligations.OutsideWindowRefused := fun _ _ n v s h =>
  ⟨hostRead_outsideWindow n s (not_inWindow h), hostWrite_outsideWindow n v s (not_inWindow h)⟩

/-- Settles O44: a step on a schedule with an oldest event, and a step on the empty schedule. -/
theorem stepTakesOldestEvent : Obligations.StepTakesOldestEvent := fun _ =>
  ⟨fun _ _ => step_cons, step_nil⟩

end Sys2Proof.Proofs
end
